-- ==== Sys2Proof/Word.lean ====
section
/-! DEFINITION. The two word types of the core (00_scope.md R6, R8): every register, memory byte and
address is an unsigned `u8` or `u16`. -/

namespace Sys2Proof

/-- `u8`: a register, a memory byte, an operand byte, an opcode (00_scope.md R8). -/
abbrev Byte := BitVec 8

/-- `u16`: the program counter and every address (00_scope.md R8). Sums of `Word`s wrap mod 65536. -/
abbrev Word := BitVec 16

end Sys2Proof
end

