-- ==== Sys2Proof/Config.lean ====
section
/-! DEFINITION. What a particular instance fixes and the spec leaves OPEN: the two construction
parameters of 00_scope.md R6. `State.construct` takes them as arguments, so a statement about
construction can hold for every value; the two values below are used by `State.reset` only. The
core has no free value: no in-scope instruction leaves a result undefined. -/

namespace Sys2Proof

/-- `RESET_ADDR` of `State.reset`. DESIGN CHOICE, unsafe (log entry 1): the spec leaves the value OPEN
(92_eei_decisions.md D2). -/
def Config.resetAddr : Word := 0x0000

/-- `RESET_SP` of `State.reset`. DESIGN CHOICE, unsafe (log entry 2): the spec leaves the value OPEN
(92_eei_decisions.md D5). -/
def Config.resetSP : Byte := 0x00

end Sys2Proof
end

