-- ==== Sys2Proof/Machine/State.lean ====
section
/-! DEFINITION. The state of one core instance, as 10_state.md R15 lists it, the reasons a step can
stop, and the state after construction (70_reset_and_hazards.md R132). -/

namespace Sys2Proof.Machine

/-- Memory as a list of (address, byte) pairs in the canonical form of `Memory.wf` (Machine/Ops.lean):
addresses strictly rising and below 65536, and no entry equal to what an unlisted address reads as. -/
abbrev Memory := List Host.Cell

/-- `CoreState` of 10_state.md R15. Nothing else is state (R31, R32). The flags are seven independent
bits with no packed view (R30, log entry 5). -/
structure State where
  /-- accumulator, R16 -/
  a : Byte
  /-- index register X, R17 -/
  x : Byte
  /-- index register Y, R18 -/
  y : Byte
  /-- program counter: between steps, the address of the next opcode byte, R20 -/
  pc : Word
  /-- stack pointer: exists only; no instruction and no host transaction reads or writes it, R21 -/
  sp : Byte
  /-- Zero, R23 -/
  z : Bool
  /-- Negative, R24 -/
  n : Bool
  /-- Carry, R25 -/
  c : Bool
  /-- Overflow, R26 -/
  v : Bool
  /-- InterruptDisable, R27 -/
  i : Bool
  /-- DecimalMode, R28 -/
  d : Bool
  /-- Break, R29 -/
  b : Bool
  /-- the 65,536 bytes of 20_memory.md R38 -/
  mem : Memory
  deriving DecidableEq, Repr

/-- Why a step stops with a fault. -/
inductive Fault where
  /-- `UnimplementedOpcode`, the core's only exception (60_exceptions.md R117): the byte at PC has no
  row in the decoder table. Raised by the decode stage of a step, through
  `raiseUnimplementedOpcode`. It is the spec's own outcome (`Err`, state unchanged), so it is safe:
  the model stops exactly where the core reports the error. It carries no code and no payload
  (R118, log entry 6). -/
  | unimplementedOpcode
  deriving DecidableEq, Repr

/-- Why an instruction has no meaning here. -/
inductive Refusal where
  /-- an instruction of the opcode table without a meaning yet; raised by no arm of `exec` (every row
  is modelled), safe: the model would stop where the core goes on. -/
  | notModelled (mnemonic : String)
  deriving DecidableEq, Repr

/-- Construction of an instance with the parameters `RESET_ADDR` and `RESET_SP`
(70_reset_and_hazards.md R132, 10_state.md R34): PC is the address itself, no vector is read (R133);
no byte of memory is listed, and an unlisted byte reads 0x00 (20_memory.md R49). -/
def State.construct (resetAddr : Word) (resetSP : Byte) : State where
  a := 0x00
  x := 0x00
  y := 0x00
  pc := resetAddr
  sp := resetSP
  z := false
  n := false
  c := false
  v := false
  i := false
  d := false
  b := false
  mem := []

/-- The machine right after reset. Its PC and SP are the values log entries 1 and 2 name. -/
def State.reset : State := State.construct Config.resetAddr Config.resetSP

end Sys2Proof.Machine
end

