-- ==== Sys2Proof/Machine/Flags.lean ====
section
/-! DEFINITION. The flag-update logic (42_flag_update.md). Carry and Overflow have no formula: no
in-scope operation writes them (R104, R105), nor InterruptDisable, DecimalMode and Break (R106). -/

namespace Sys2Proof.Machine

/-- Zero: `r == 0x00` (42_flag_update.md R102). -/
def zeroFlag (r : Byte) : Bool := r == 0x00

/-- Negative: bit 7 of `r` (42_flag_update.md R103). -/
def negativeFlag (r : Byte) : Bool := r.getLsbD 7

/-- `flags_from_result(r)`, a pure function of one byte: (Z, N) (42_flag_update.md R101). -/
def flagsFromResult (r : Byte) : Bool × Bool := (zeroFlag r, negativeFlag r)

end Sys2Proof.Machine
end

