-- ==== Sys2Proof/Syntax.lean ====
section
/-! DEFINITION. The instruction set as syntax: the closed set of addressing modes, the one operation,
the rows of the opcode map, and `Instr`, one constructor per row of spec/opcode_table.json with its
assembled operand (30_encoding.md R58, R60, R72). -/

namespace Sys2Proof

/-- The closed set of addressing modes (30_encoding.md R59, R72). -/
inductive Mode where
  | immediate | zeroPage | zeroPageX | absolute | absoluteX | absoluteY | indirectX | indirectY
  deriving DecidableEq, Repr

/-- What the spec calls `Instr` in R72: the one in-scope operation, the accumulator load. -/
inductive Operation where
  | lda
  deriving DecidableEq, Repr

/-- One row of the decoder table of 30_encoding.md R61. -/
structure OpcodeRow where
  /-- the opcode constant's name (R68) -/
  name : String
  /-- the opcode byte -/
  opcode : Byte
  operation : Operation
  mode : Mode
  deriving DecidableEq, Repr

/-- One constructor per row of the opcode table. The argument is the assembled operand of
30_encoding.md R60: `imm8`, `zp8`, or `abs16` (`hi ++ lo`). -/
inductive Instr where
  /-- `LDA #$nn`, 43_load_accumulator.md R109 -/
  | ldaImm (imm8 : Byte)
  /-- `LDA $nn`, R110 -/
  | ldaZp (zp8 : Byte)
  /-- `LDA $nn,X`, R111 -/
  | ldaZpX (zp8 : Byte)
  /-- `LDA $nnnn`, R112 -/
  | ldaAbs (abs16 : Word)
  /-- `LDA $nnnn,X`, R113 -/
  | ldaAbsX (abs16 : Word)
  /-- `LDA $nnnn,Y`, R114 -/
  | ldaAbsY (abs16 : Word)
  /-- `LDA ($nn,X)`, R115 -/
  | ldaIndX (zp8 : Byte)
  /-- `LDA ($nn),Y`, R116 -/
  | ldaIndY (zp8 : Byte)
  deriving DecidableEq, Repr

end Sys2Proof
end

