-- ==== Sys2Proof/WellFormed.lean ====
section
/-! DEFINITION. Well-formed instructions. 30_encoding.md R70: operand bytes are never validated, every
value of `imm8`, `zp8`, `lo` and `hi` is accepted, and the operands' types hold exactly those values;
so there is no check that an instruction term could fail (log entry 12). What can be ill-formed is a
string of bytes: `isInstructionBytes` in Sys2Proof/Decode.lean checks that one (opcode in the table,
R61; exactly `1 + n` bytes, R69), and the smoke tests show an ill-formed string for each check. -/

namespace Sys2Proof

/-- Every instruction term is well formed (30_encoding.md R70). -/
def WellFormed : Instr → Bool
  | .ldaImm _ => true
  | .ldaZp _ => true
  | .ldaZpX _ => true
  | .ldaAbs _ => true
  | .ldaAbsX _ => true
  | .ldaAbsY _ => true
  | .ldaIndX _ => true
  | .ldaIndY _ => true

end Sys2Proof
end

