-- ==== Sys2Proof/Decode.lean ====
section
/-! DEFINITION. The decoder dispatch table, operand assembly, the decoder of a byte list, and the
encoder (30_encoding.md). The opcode values are those of R61, which the spec takes from general
knowledge (92_eei_decisions.md D3; UNVERIFIED, unsafe, log entry 3). -/

namespace Sys2Proof

/-! ### Byte order (20_memory.md R43, 00_scope.md R9) -/

/-- `hi ++ lo`, the u16 `hi * 256 + lo`. -/
def joinBytes (hi lo : Byte) : Word := hi ++ lo

/-- Bits 7..0 of a word. -/
def loByte (w : Word) : Byte := w.extractLsb' 0 8

/-- Bits 15..8 of a word. -/
def hiByte (w : Word) : Byte := w.extractLsb' 8 8

/-! ### The table (R61, R65, R68) -/

/-- The static table of R61, in its order. `OPCODE_MAP` of 92_eei_decisions.md D3 at its default. -/
def opcodeMap : List OpcodeRow :=
  [ ⟨"LDA_IMM", 0xA9, .lda, .immediate⟩,
    ⟨"LDA_ZP", 0xA5, .lda, .zeroPage⟩,
    ⟨"LDA_ZPX", 0xB5, .lda, .zeroPageX⟩,
    ⟨"LDA_ABS", 0xAD, .lda, .absolute⟩,
    ⟨"LDA_ABSX", 0xBD, .lda, .absoluteX⟩,
    ⟨"LDA_ABSY", 0xB9, .lda, .absoluteY⟩,
    ⟨"LDA_INDX", 0xA1, .lda, .indirectX⟩,
    ⟨"LDA_INDY", 0xB1, .lda, .indirectY⟩ ]

/-- The operation and mode the first row with this opcode byte gives; none where no row has it (R71). -/
def lookupOpcode : List OpcodeRow → Byte → Option (Operation × Mode)
  | [], _ => none
  | r :: rest, op => if r.opcode = op then some (r.operation, r.mode) else lookupOpcode rest op

/-- `decode(op)` of R61: total on all 256 bytes, `none` for the 248 unimplemented ones (R63, R71). It
reads the opcode byte alone (R66). -/
def decodeOpcode (op : Byte) : Option (Operation × Mode) := lookupOpcode opcodeMap op

/-- The opcode constant table the core exposes to loaders (R68): the name and value columns of R61. -/
def opcodeConstants : List (String × Byte) := opcodeMap.map fun r => (r.name, r.opcode)

/-- `n(mode)`, the operand bytes of a mode (R59). -/
def Mode.operandBytes : Mode → Nat
  | .immediate => 1
  | .zeroPage => 1
  | .zeroPageX => 1
  | .absolute => 2
  | .absoluteX => 2
  | .absoluteY => 2
  | .indirectX => 1
  | .indirectY => 1

/-! ### Decoding -/

/-- Operand assembly (R60): the accumulator load in this mode with operand bytes `b1`, `b2`; a mode
with one operand byte takes nothing from `b2`. -/
def assemble (mode : Mode) (b1 b2 : Byte) : Instr :=
  match mode with
  | .immediate => .ldaImm b1
  | .zeroPage => .ldaZp b1
  | .zeroPageX => .ldaZpX b1
  | .absolute => .ldaAbs (joinBytes b2 b1)
  | .absoluteX => .ldaAbsX (joinBytes b2 b1)
  | .absoluteY => .ldaAbsY (joinBytes b2 b1)
  | .indirectX => .ldaIndX b1
  | .indirectY => .ldaIndY b1

/-- Why a byte list is refused. Neither is a fault of the machine by itself: memory never ends, so a
step meets only the first, and raises it as `UnimplementedOpcode` (60_exceptions.md R117). -/
inductive DecodeError where
  /-- the first byte is not in the table (R63) -/
  | unimplementedOpcode (op : Byte)
  /-- the list ends before the instruction does (log entry 18) -/
  | truncated
  deriving DecidableEq, Repr

/-- The operand bytes of a mode from a byte list, assembled, with what is left of the list (R58, R60). -/
def decodeOperands (mode : Mode) (bytes : List Byte) : Except DecodeError (Instr × List Byte) :=
  match mode.operandBytes, bytes with
  | 1, b1 :: rest => .ok (assemble mode b1 0, rest)
  | 2, b1 :: b2 :: rest => .ok (assemble mode b1 b2, rest)
  | _, _ => .error .truncated

/-- The decoder: one instruction from the front of a byte list, lowest address first, with what is
left of the list (R57, R61, R69). Total on every list. -/
def decode : List Byte → Except DecodeError (Instr × List Byte)
  | [] => .error .truncated
  | op :: rest =>
    match decodeOpcode op with
    | none => .error (.unimplementedOpcode op)
    | some (.lda, mode) => decodeOperands mode rest

/-- A byte string that is exactly one instruction: opcode in the table, `1 + n` bytes (R57, R69). -/
def isInstructionBytes (bytes : List Byte) : Bool :=
  match decode bytes with
  | .ok (_, []) => true
  | .ok (_, _ :: _) => false
  | .error _ => false

/-! ### Encoding -/

/-- The addressing mode of an instruction. -/
def Instr.mode : Instr → Mode
  | .ldaImm _ => .immediate
  | .ldaZp _ => .zeroPage
  | .ldaZpX _ => .zeroPageX
  | .ldaAbs _ => .absolute
  | .ldaAbsX _ => .absoluteX
  | .ldaAbsY _ => .absoluteY
  | .ldaIndX _ => .indirectX
  | .ldaIndY _ => .indirectY

/-- The opcode byte of the accumulator load in a mode, written from R61 row by row. -/
def Mode.opcode : Mode → Byte
  | .immediate => 0xA9
  | .zeroPage => 0xA5
  | .zeroPageX => 0xB5
  | .absolute => 0xAD
  | .absoluteX => 0xBD
  | .absoluteY => 0xB9
  | .indirectX => 0xA1
  | .indirectY => 0xB1

/-- The operand bytes in increasing address order: formats IMM8, ZP8 and ABS16 of R58. -/
def Instr.operandList : Instr → List Byte
  | .ldaImm imm8 => [imm8]
  | .ldaZp zp8 => [zp8]
  | .ldaZpX zp8 => [zp8]
  | .ldaAbs abs16 => [loByte abs16, hiByte abs16]
  | .ldaAbsX abs16 => [loByte abs16, hiByte abs16]
  | .ldaAbsY abs16 => [loByte abs16, hiByte abs16]
  | .ldaIndX zp8 => [zp8]
  | .ldaIndY zp8 => [zp8]

/-- The bytes of an instruction in increasing address order (R57, R58). -/
def encode (i : Instr) : List Byte := i.mode.opcode :: i.operandList

/-- The length of an instruction in bytes, `1 + n(mode)` (R69). -/
def Instr.length (i : Instr) : Nat := 1 + i.mode.operandBytes

/-! ### The host's table words -/

/-- Byte `k` of a table word, its bits above `nbits` taken as 0 (byte 0 at the lowest address). -/
def tableByte (nbits w k : Nat) : Byte := BitVec.ofNat 8 (w % 2 ^ nbits / 256 ^ k)

/-- A table word as the three bytes of the longest instruction, in increasing address order. -/
def tableBytes (nbits w : Nat) : List Byte :=
  [tableByte nbits w 0, tableByte nbits w 1, tableByte nbits w 2]

/-- The instruction the decoder reads from a table word; none where the decoder refuses. -/
def decodeTableWord (nbits w : Nat) : Option Instr :=
  match decode (tableBytes nbits w) with
  | .ok (i, _) => some i
  | .error _ => none

end Sys2Proof
end

