-- ==== Sys2Proof/Machine/Ops.lean ====
section
/-! DEFINITION. The named operations over memory, the program counter and the host-visible registers,
and the one exception. -/

namespace Sys2Proof.Machine

/-! ### Memory as data -/

/-- What an address with no entry reads as: memory is zero-initialised at construction
(20_memory.md R49). -/
def Memory.unlisted : Byte := 0x00

/-- The byte at an address (as a number). -/
def Memory.read : Memory → Nat → Byte
  | [], _ => Memory.unlisted
  | (k, w) :: rest, a => if k = a then w else Memory.read rest a

/-- Puts an entry in front of a list unless it says what an unlisted address reads as anyway. -/
def Memory.entry (a : Nat) (v : Byte) (rest : Memory) : Memory :=
  if v = Memory.unlisted then rest else (a, v) :: rest

/-- Stores a byte at an address (as a number), keeping the canonical form. -/
def Memory.write : Memory → Nat → Byte → Memory
  | [], a, v => Memory.entry a v []
  | (k, w) :: rest, a, v =>
    if a < k then Memory.entry a v ((k, w) :: rest)
    else if a = k then Memory.entry a v rest
    else (k, w) :: Memory.write rest a v

/-- The number of byte addresses (00_scope.md R6). -/
def Memory.size : Nat := 65536

/-- The canonical form from a lower bound on: addresses at least `lo`, strictly rising and inside the
address space, and no entry equal to the unlisted byte. -/
def Memory.wfFrom : Nat → Memory → Bool
  | _, [] => true
  | lo, (k, w) :: rest =>
    decide (lo ≤ k) && decide (k < Memory.size) && (w != Memory.unlisted) && Memory.wfFrom (k + 1) rest

/-- The canonical form: equal memories are equal lists. -/
def Memory.wf (m : Memory) : Bool := Memory.wfFrom 0 m

/-! ### The memory primitives (00_scope.md R10) -/

/-- The u16 with the same value as a byte (00_scope.md R8). -/
def zext16 (b : Byte) : Word := b.setWidth 16

/-- `MemRead(addr, 1)`, total and pure (20_memory.md R39). -/
def memRead (m : Memory) (addr : Word) : Byte := Memory.read m addr.toNat

/-- `MemWrite(addr, 1, v)` on memory, total (20_memory.md R40). -/
def memWrite (m : Memory) (addr : Word) (v : Byte) : Memory := Memory.write m addr.toNat v

/-- `Read16LE(a)`: low byte at `a`, high byte at `(a + 1) mod 65536` (20_memory.md R44). -/
def read16LE (m : Memory) (a : Word) : Word := joinBytes (memRead m (a + 1)) (memRead m a)

/-- `ReadZP16(p)`: both bytes in page 0, the second at `(p + 1) mod 256` (20_memory.md R44). -/
def readZP16 (m : Memory) (p : Byte) : Word :=
  joinBytes (memRead m (zext16 (p + 1))) (memRead m (zext16 p))

/-! ### State updates outside a step -/

/-- Stores one byte in a state's memory and changes nothing else (20_memory.md R40). -/
def State.storeByte (s : State) (addr : Word) (v : Byte) : State :=
  { s with mem := memWrite s.mem addr v }

/-- Stores bytes at consecutive addresses from `addr` on, each address mod 65536, first byte first:
how a host places an instruction (70_reset_and_hazards.md R136). -/
def State.storeBytes : State → Word → List Byte → State
  | s, _, [] => s
  | s, addr, v :: rest => State.storeBytes (s.storeByte addr v) (addr + 1) rest

/-! ### The program counter (41_fetch_decode_execute.md R93) -/

/-- `(PC + 1 + n) mod 65536`: past the opcode and `n` operand bytes. The wrap is
92_eei_decisions.md D4 (log entry 4). -/
def nextPc (pc : Word) (operandBytes : Nat) : Word := pc + 1 + BitVec.ofNat 16 operandBytes

/-! ### The exception (60_exceptions.md R117, R123, R124) -/

/-- Taking `UnimplementedOpcode`. The core has no trap entry (R123): nothing is saved, no mode or mask
changes, there is no vector; the step ends with the error and the state stays as it was (R117), which
`HostCall.step` gives back to the host (Machine/HostPort.lean). There is no return from it: no handler
runs in the core (R124), so no operation stands beside this one. -/
def raiseUnimplementedOpcode (_s : State) : Host.Outcome State Fault Refusal :=
  .fault .unimplementedOpcode

end Sys2Proof.Machine
end

