-- ==== Sys2Proof/Machine/Operands.lean ====
section
/-! DEFINITION. The addressing-mode resolver (40_addressing_modes.md): the effective address of every
mode, the operand read, the resolver over the instruction stream, and the addresses it reads. -/

namespace Sys2Proof.Machine

/-- The resolver's result: an immediate literal byte or an effective memory address (R73). -/
inductive OperandSource where
  | imm (v : Byte)
  | addr (ea : Word)
  deriving DecidableEq, Repr

/-! ### Effective addresses, from assembled operands -/

/-- Zero Page: the operand byte with high byte 0 (R75). -/
def eaZeroPage (zp : Byte) : Word := zext16 zp

/-- The page-0 sum of Zero Page,X and of Indirect,X's pointer: mod 256 (R76, R80, R83). -/
def zeroPageIndex (zp index : Byte) : Byte := zp + index

/-- Zero Page,X: wraps within page 0 (R76). -/
def eaZeroPageX (zp x : Byte) : Word := zext16 (zeroPageIndex zp x)

/-- Absolute: the assembled 16-bit operand (R77). -/
def eaAbsolute (abs16 : Word) : Word := abs16

/-- Absolute,X and Absolute,Y, and the last sum of Indirect,Y: mod 65536, may cross a page
(R78, R79, R81, R83). -/
def indexWord (base : Word) (index : Byte) : Word := base + zext16 index

/-- Indirect,X: the pointer is indexed in page 0 and read there; no index after the read (R80). -/
def eaIndirectX (m : Memory) (zp x : Byte) : Word := readZP16 m (zeroPageIndex zp x)

/-- Indirect,Y: the pointer is not indexed; Y is added to the base read at it (R81). -/
def eaIndirectY (m : Memory) (zp y : Byte) : Word := indexWord (readZP16 m zp) y

/-! ### The operand read -/

/-- The operand value read through its source: at most one byte (R82). -/
def operandValue (m : Memory) : OperandSource → Byte
  | .imm v => v
  | .addr ea => memRead m ea

/-! ### The resolver over the instruction stream -/

/-- `resolve(mode, cur, M, X, Y)`: the operand source and the count of operand bytes consumed (R73 to
R81). `b1` is at the cursor and `b2` at the next address mod 65536 (R84). -/
def resolve (mode : Mode) (cur : Word) (m : Memory) (x y : Byte) : OperandSource × Nat :=
  match mode with
  | .immediate => (.imm (memRead m cur), mode.operandBytes)
  | .zeroPage => (.addr (eaZeroPage (memRead m cur)), mode.operandBytes)
  | .zeroPageX => (.addr (eaZeroPageX (memRead m cur) x), mode.operandBytes)
  | .absolute => (.addr (eaAbsolute (read16LE m cur)), mode.operandBytes)
  | .absoluteX => (.addr (indexWord (read16LE m cur) x), mode.operandBytes)
  | .absoluteY => (.addr (indexWord (read16LE m cur) y), mode.operandBytes)
  | .indirectX => (.addr (eaIndirectX m (memRead m cur) x), mode.operandBytes)
  | .indirectY => (.addr (eaIndirectY m (memRead m cur) y), mode.operandBytes)

/-! ### The addresses read (R85) -/

/-- The operand-byte addresses: `b1` at the cursor, `b2` next where the mode has one (R84). -/
def operandAddrs (mode : Mode) (cur : Word) : List Word :=
  (List.range mode.operandBytes).map fun k => cur + BitVec.ofNat 16 k

/-- The pointer-byte addresses, low then high, both in page 0 (R80, R81). -/
def pointerAddrs (p : Byte) : List Word := [zext16 p, zext16 (p + 1)]

/-- The addresses `resolve` reads: operand bytes, then pointer bytes (R74 to R81, R85). -/
def resolverReads (mode : Mode) (cur : Word) (m : Memory) (x : Byte) : List Word :=
  operandAddrs mode cur ++
    match mode with
    | .immediate | .zeroPage | .zeroPageX | .absolute | .absoluteX | .absoluteY => []
    | .indirectX => pointerAddrs (zeroPageIndex (memRead m cur) x)
    | .indirectY => pointerAddrs (memRead m cur)

/-- The address the operand read touches: none for an immediate (R82). -/
def sourceReads : OperandSource → List Word
  | .imm _ => []
  | .addr ea => [ea]

end Sys2Proof.Machine
end

