-- ==== Sys2Proof/Machine/Load.lean ====
section
/-! DEFINITION. The accumulator-load family (43_load_accumulator.md): one meaning per opcode row, each
one line over the family's shared operation. `s.pc` is the address of the opcode byte; an instruction
carries its operands already assembled, and every read uses the state before the step
(41_fetch_decode_execute.md R87, R95). -/

namespace Sys2Proof.Machine

/-- The commit of a load of `v` by an instruction with `n` operand bytes: A, Z, N and PC, all at once
(41_fetch_decode_execute.md R87, R94; flags from the loaded byte, 42_flag_update.md R107). -/
def commitLoad (v : Byte) (operandBytes : Nat) (s : State) : State :=
  { s with
    a := v
    z := zeroFlag v
    n := negativeFlag v
    pc := nextPc s.pc operandBytes }

/-- The load family's shared operation: read the operand through its source, commit, `Ok`. There is no
failure path once decode has succeeded (60_exceptions.md R119). -/
def loadFrom (src : OperandSource) (mode : Mode) (s : State) : Host.Outcome State Fault Refusal :=
  .next (commitLoad (operandValue s.mem src) mode.operandBytes s)

/-- `LDA #imm8` (R109). -/
def execLdaImm (imm8 : Byte) (s : State) : Host.Outcome State Fault Refusal :=
  loadFrom (.imm imm8) .immediate s

/-- `LDA zp` (R110). -/
def execLdaZp (zp8 : Byte) (s : State) : Host.Outcome State Fault Refusal :=
  loadFrom (.addr (eaZeroPage zp8)) .zeroPage s

/-- `LDA zp,X` (R111). -/
def execLdaZpX (zp8 : Byte) (s : State) : Host.Outcome State Fault Refusal :=
  loadFrom (.addr (eaZeroPageX zp8 s.x)) .zeroPageX s

/-- `LDA abs` (R112). -/
def execLdaAbs (abs16 : Word) (s : State) : Host.Outcome State Fault Refusal :=
  loadFrom (.addr (eaAbsolute abs16)) .absolute s

/-- `LDA abs,X` (R113). -/
def execLdaAbsX (abs16 : Word) (s : State) : Host.Outcome State Fault Refusal :=
  loadFrom (.addr (indexWord abs16 s.x)) .absoluteX s

/-- `LDA abs,Y` (R114). -/
def execLdaAbsY (abs16 : Word) (s : State) : Host.Outcome State Fault Refusal :=
  loadFrom (.addr (indexWord abs16 s.y)) .absoluteY s

/-- `LDA (zp,X)` (R115). -/
def execLdaIndX (zp8 : Byte) (s : State) : Host.Outcome State Fault Refusal :=
  loadFrom (.addr (eaIndirectX s.mem zp8 s.x)) .indirectX s

/-- `LDA (zp),Y` (R116). -/
def execLdaIndY (zp8 : Byte) (s : State) : Host.Outcome State Fault Refusal :=
  loadFrom (.addr (eaIndirectY s.mem zp8 s.y)) .indirectY s

end Sys2Proof.Machine
end

