-- ==== Sys2Proof/Machine/Dispatch.lean ====
section
/-! DEFINITION. Which meaning an instruction runs: one arm per constructor of `Instr`
(41_fetch_decode_execute.md R91). -/

namespace Sys2Proof.Machine

def exec (i : Instr) (s : State) : Host.Outcome State Fault Refusal :=
  match i with
  | .ldaImm imm8 => Sys2Proof.Machine.execLdaImm imm8 s
  | .ldaZp zp8 => Sys2Proof.Machine.execLdaZp zp8 s
  | .ldaZpX zp8 => Sys2Proof.Machine.execLdaZpX zp8 s
  | .ldaAbs abs16 => Sys2Proof.Machine.execLdaAbs abs16 s
  | .ldaAbsX abs16 => Sys2Proof.Machine.execLdaAbsX abs16 s
  | .ldaAbsY abs16 => Sys2Proof.Machine.execLdaAbsY abs16 s
  | .ldaIndX zp8 => Sys2Proof.Machine.execLdaIndX zp8 s
  | .ldaIndY zp8 => Sys2Proof.Machine.execLdaIndY zp8 s

end Sys2Proof.Machine
end

