-- ==== Sys2Proof/Machine/Fetch.lean ====
section
/-! DEFINITION. The fetch and decode stages of a step (41_fetch_decode_execute.md R87 to R90), the reads
a whole step makes (40_addressing_modes.md R85), and placing a table word where the core fetches. -/

namespace Sys2Proof.Machine

/-- Fetch: the opcode byte at PC (R88). -/
def fetchOpcode (s : State) : Byte := memRead s.mem s.pc

/-- The operand cursor, just past the opcode byte (R90; 40_addressing_modes.md R73, R84). -/
def operandCursor (s : State) : Word := s.pc + 1

/-- The instruction at PC, its operands assembled from the bytes at the cursor; none where the opcode
is unimplemented, and then no operand byte is used (R89). The second operand byte is used by the
two-operand-byte modes only (30_encoding.md R60). -/
def fetchInstr (s : State) : Option Instr :=
  match decodeOpcode (fetchOpcode s) with
  | none => none
  | some (.lda, mode) =>
    some (assemble mode (memRead s.mem (operandCursor s)) (memRead s.mem (operandCursor s + 1)))

/-- The bytes at consecutive addresses from `a` on, each address mod 65536 (30_encoding.md R58). -/
def bytesAt (m : Memory) (a : Word) : Nat → List Byte
  | 0 => []
  | k + 1 => memRead m a :: bytesAt m (a + 1) k

/-- The addresses a step reads, in the spec's order: opcode, operand bytes, pointer low and high,
operand (40_addressing_modes.md R85); a failing step reads the opcode byte only (R89). The order is
unobservable (92_eei_decisions.md D23, log entry 13). -/
def stepReads (s : State) : List Word :=
  s.pc ::
    match decodeOpcode (fetchOpcode s) with
    | none => []
    | some (.lda, mode) =>
      resolverReads mode (operandCursor s) s.mem s.x ++
        sourceReads (resolve mode (operandCursor s) s.mem s.x s.y).1

/-- The state with a table word's three bytes stored at PC, PC+1 and PC+2, each mod 65536. -/
def placeTableWord (s : State) (nbits w : Nat) : State := s.storeBytes s.pc (tableBytes nbits w)

end Sys2Proof.Machine
end

