-- ==== Sys2Proof/Machine/Step.lean ====
section
/-! DEFINITION. One step of the core (41_fetch_decode_execute.md R87): fetch and decode, then either the
instruction's meaning, which advances PC itself, or the exception. -/

namespace Sys2Proof.Machine

/-- `Cpu.step()` (R86, R87). `next` is `Ok` with the committed state; `fault` is `Err`, and the state
stays as it was (60_exceptions.md R117). -/
def step (s : State) : Host.Outcome State Fault Refusal :=
  match fetchInstr s with
  | some i => exec i s
  | none => raiseUnimplementedOpcode s

/-- The state with a table word stored where the next step fetches: the host's load of a program,
70_reset_and_hazards.md R136 (log entry 11). -/
def State.withFetchWord (s : State) (nbits w : Nat) : State := placeTableWord s nbits w

end Sys2Proof.Machine
end

