-- ==== Sys2Proof/Machine/HostPort.lean ====
section
/-! DEFINITION. The host interface of 41_fetch_decode_execute.md R98: every transaction as one total
operation between steps (92_eei_decisions.md D11, log entry 7), runs of steps (R100), and several
isolated instances (60_exceptions.md R128). -/

namespace Sys2Proof.Machine

/-- The byte registers that have accessors. SP has none (10_state.md R21, R33; log entry 9). -/
inductive ByteReg where
  | a | x | y
  deriving DecidableEq, Repr

/-- The seven flags; each has accessors (10_state.md R22, R33). -/
inductive Flag where
  | z | n | c | v | i | d | b
  deriving DecidableEq, Repr

/-- A transaction with one instance. A host value of any size is presented as a number, and the port
keeps its low bits (R33, 20_memory.md R40; log entry 10). -/
inductive HostCall where
  | memRead (addr : Word)
  | memWrite (addr : Word) (v : Nat)
  | step
  | readReg (r : ByteReg)
  | writeReg (r : ByteReg) (v : Nat)
  | readPc
  | writePc (v : Nat)
  | readFlag (f : Flag)
  | writeFlag (f : Flag) (bit : Bool)
  | opcodeConstants
  deriving DecidableEq, Repr

/-- What the core returns. -/
inductive Reply where
  /-- a write was done -/
  | done
  | byte (v : Byte)
  | word (v : Word)
  | bit (v : Bool)
  | constants (table : List (String × Byte))
  /-- `Ok` of `Cpu.step()` -/
  | ok
  /-- `Err` of `Cpu.step()` (00_scope.md R11) -/
  | err (e : Fault)
  /-- the model refused the instruction; no step answers so (log entry 17) -/
  | refused (r : Refusal)
  deriving DecidableEq, Repr

/-- An accessor's read (10_state.md R33). -/
def readReg (r : ByteReg) (s : State) : Byte :=
  match r with
  | .a => s.a
  | .x => s.x
  | .y => s.y

/-- An accessor's write: that register, nothing else (10_state.md R33). -/
def writeReg (r : ByteReg) (v : Byte) (s : State) : State :=
  match r with
  | .a => { s with a := v }
  | .x => { s with x := v }
  | .y => { s with y := v }

/-- PC's accessor write (10_state.md R20, R33). -/
def writePc (v : Word) (s : State) : State := { s with pc := v }

/-- A flag accessor's read (10_state.md R33). -/
def readFlag (f : Flag) (s : State) : Bool :=
  match f with
  | .z => s.z
  | .n => s.n
  | .c => s.c
  | .v => s.v
  | .i => s.i
  | .d => s.d
  | .b => s.b

/-- A flag accessor's write: that flag, nothing else (10_state.md R33). -/
def writeFlag (f : Flag) (bit : Bool) (s : State) : State :=
  match f with
  | .z => { s with z := bit }
  | .n => { s with n := bit }
  | .c => { s with c := bit }
  | .v => { s with v := bit }
  | .i => { s with i := bit }
  | .d => { s with d := bit }
  | .b => { s with b := bit }

/-- `Cpu.step()` as the host sees it: `Ok` with the committed state, or `Err` with the state exactly as
it was (00_scope.md R11, 60_exceptions.md R117). -/
def stepCall (s : State) : Reply × State :=
  match step s with
  | .next t => (.ok, t)
  | .fault e => (.err e, s)
  | .refused r => (.refused r, s)

/-- One transaction: the reply and the state after it (41_fetch_decode_execute.md R98). -/
def hostCall (c : HostCall) (s : State) : Reply × State :=
  match c with
  | .memRead addr => (.byte (memRead s.mem addr), s)
  | .memWrite addr v => (.done, s.storeByte addr (BitVec.ofNat 8 v))
  | .step => stepCall s
  | .readReg r => (.byte (readReg r s), s)
  | .writeReg r v => (.done, writeReg r (BitVec.ofNat 8 v) s)
  | .readPc => (.word s.pc, s)
  | .writePc v => (.done, writePc (BitVec.ofNat 16 v) s)
  | .readFlag f => (.bit (readFlag f s), s)
  | .writeFlag f bit => (.done, writeFlag f bit s)
  | .opcodeConstants => (.constants opcodeConstants, s)

/-- The state after a sequence of transactions, in the order the host makes them (20_memory.md R50). -/
def hostCalls : List HostCall → State → State
  | [], s => s
  | c :: rest, s => hostCalls rest (hostCall c s).2

/-! ### Runs (41_fetch_decode_execute.md R100, log entry 16) -/

/-- How a run of at most `k` steps ends. -/
inductive RunEnd where
  /-- the k-th successful step -/
  | completed (s : State)
  /-- the first step that returned `Err`, after `done` successful ones: the first fault is recorded, and
  the state is not a normal completion (60_exceptions.md R125) -/
  | err (done : Nat) (e : Fault) (s : State)
  /-- the model refused; no run ends so (log entry 17) -/
  | refused (r : Refusal)
  deriving DecidableEq, Repr

/-- A run of `k` steps with no host transaction between them, `done` of which are behind it. -/
def runFrom (done : Nat) : Nat → State → RunEnd
  | 0, s => .completed s
  | k + 1, s =>
    match step s with
    | .next t => runFrom (done + 1) k t
    | .fault e => .err done e s
    | .refused r => .refused r

/-- A run of `k` steps: it ends at the k-th successful step or the first `Err`. -/
def runSteps (k : Nat) (s : State) : RunEnd := runFrom 0 k s

/-! ### Several instances (20_memory.md R55, 60_exceptions.md R128) -/

/-- What a host can do with several instances: construct one more, or a transaction with one it has. -/
inductive PlatformAction where
  | construct (resetAddr : Word) (resetSP : Byte)
  | call (k : Nat) (c : HostCall)
  deriving DecidableEq, Repr

/-- One action on the instances a host owns, oldest first. A call on an instance that does not exist
does nothing and has no reply (log entry 16). -/
def platformAct (act : PlatformAction) (cores : List State) : Option Reply × List State :=
  match act with
  | .construct resetAddr resetSP => (some .done, cores ++ [State.construct resetAddr resetSP])
  | .call k c =>
    match cores[k]? with
    | none => (none, cores)
    | some s => (some (hostCall c s).1, cores.set k (hostCall c s).2)

end Sys2Proof.Machine
end

