-- ==== Sys2Proof/Safety.lean ====
section
/-! DEFINITION. What claims about safe runs use: the state invariant, when a step succeeds, and when a
run of steps meets no error. -/

namespace Sys2Proof.Safety

open Sys2Proof.Machine

/-- The invariant of the model: memory is in its canonical form. The spec's own ranges
(10_state.md R35) are the types'. -/
abbrev StateInv (s : State) : Prop := Memory.wf s.mem = true

/-- The next step succeeds: the byte at PC is an implemented opcode (60_exceptions.md R122). -/
def stepSucceeds (s : State) : Bool := (fetchInstr s).isSome

/-- A run of `k` steps ends at its k-th successful step (41_fetch_decode_execute.md R100). -/
def runSucceeds (k : Nat) (s : State) : Bool :=
  match runSteps k s with
  | .completed _ => true
  | .err _ _ _ => false
  | .refused _ => false

end Sys2Proof.Safety
end

