-- ==== Sys2Proof/Certificates/Slice0/Obligations.lean ====
section
/-! DEFINITION. The statements for the provers. Right-hand sides are written in plain arithmetic on
numbers, as the spec's rules are, not with the model's own operand functions. Where a clause rests on
something the spec marks as its own decision, inference or general knowledge, the docstring says so. -/

namespace Sys2Proof.Claims

open Sys2Proof.Machine

/-! ### The spec's vocabulary, in numbers -/

/-- `M[a]` for an address given as a number. -/
def byteAt (s : State) (a : Nat) : Byte := memRead s.mem (BitVec.ofNat 16 a)

/-- The next state of a load of `v` by an instruction of `len` bytes (43_load_accumulator.md):
`A <- v; Z <- (v == 0); N <- v[7]; PC <- (PC + len) mod 65536`, everything else unchanged. -/
def loaded (s : State) (v : Byte) (len : Nat) : State :=
  { s with
    a := v
    z := decide (v.toNat = 0)
    n := decide (128 ≤ v.toNat)
    pc := BitVec.ofNat 16 ((s.pc.toNat + len) % 65536) }

/-- `ReadZP16(p)` as a number: both bytes in page 0 (20_memory.md R44). -/
def pointerAt (s : State) (p : Nat) : Nat :=
  (byteAt s (p % 256)).toNat + 256 * (byteAt s ((p + 1) % 256)).toNat

/-- The operand byte number `k` (1 or 2) of the instruction at PC (30_encoding.md R58). -/
def operandByte (s : State) (k : Nat) : Byte := byteAt s ((s.pc.toNat + k) % 65536)

/-- The 16-bit operand of the instruction at PC, as a number (30_encoding.md R60). -/
def operandWord (s : State) : Nat := (operandByte s 1).toNat + 256 * (operandByte s 2).toNat

/-- The value the accumulator load in a mode reads, the modes of 40_addressing_modes.md R74 to R81
written in numbers. -/
def specOperand (s : State) : Mode → Byte
  | .immediate => operandByte s 1
  | .zeroPage => byteAt s (operandByte s 1).toNat
  | .zeroPageX => byteAt s (((operandByte s 1).toNat + s.x.toNat) % 256)
  | .absolute => byteAt s (operandWord s)
  | .absoluteX => byteAt s ((operandWord s + s.x.toNat) % 65536)
  | .absoluteY => byteAt s ((operandWord s + s.y.toNat) % 65536)
  | .indirectX => byteAt s (pointerAt s (((operandByte s 1).toNat + s.x.toNat) % 256))
  | .indirectY => byteAt s ((pointerAt s (operandByte s 1).toNat + s.y.toNat) % 65536)

/-- The instruction lengths in bytes: two, and three for the absolute modes (30_encoding.md R58). -/
def specLength : Mode → Nat
  | .absolute | .absoluteX | .absoluteY => 3
  | .immediate | .zeroPage | .zeroPageX | .indirectX | .indirectY => 2

/-- `step(s)` of 41_fetch_decode_execute.md R87, stage by stage; none is `Err`. -/
def specStep (s : State) : Option State :=
  match decodeOpcode (byteAt s s.pc.toNat) with
  | none => none
  | some (.lda, mode) => some (loaded s (specOperand s mode) (specLength mode))

/-- The byte a transaction writes to `a`, if it is a `Memory.write` to `a` (20_memory.md R40). -/
def writeTo (a : Word) : HostCall → Option Byte
  | .memWrite addr v => if addr = a then some (BitVec.ofNat 8 (v % 256)) else none
  | .memRead _ | .step | .readReg _ | .writeReg _ _ | .readPc | .writePc _ | .readFlag _
  | .writeFlag _ _ | .opcodeConstants => none

/-- The value of the last `Memory.write` to `a` in a sequence of transactions, if there is one. -/
def lastWrite (a : Word) : List HostCall → Option Byte
  | [] => none
  | c :: rest => (lastWrite a rest).or (writeTo a c)

/-- The `Memory.write` transactions that place bytes at consecutive addresses mod 65536. -/
def writesAt (a : Word) : List Byte → List HostCall
  | [] => []
  | v :: rest => .memWrite a v.toNat :: writesAt (a + 1) rest

/-- An outcome with the memory of its next state replaced. -/
def withMem (m : Memory) : Host.Outcome State Fault Refusal → Host.Outcome State Fault Refusal
  | .next t => .next { t with mem := m }
  | .fault e => .fault e
  | .refused r => .refused r

/-- A state with the flags a step does not write, and SP, replaced. -/
def withInert (cf vf idf df bf : Bool) (sp : Byte) (s : State) : State :=
  { s with c := cf, v := vf, i := idf, d := df, b := bf, sp := sp }

/-- An outcome with the same replacement in its next state. -/
def outcomeWithInert (cf vf idf df bf : Bool) (sp : Byte) :
    Host.Outcome State Fault Refusal → Host.Outcome State Fault Refusal
  | .next t => .next (withInert cf vf idf df bf sp t)
  | .fault e => .fault e
  | .refused r => .refused r

/-- Everything but A, Z, N and PC is the same in two states, every byte of memory included. -/
def sameButLoadTargets (s t : State) : Prop :=
  t.x = s.x ∧ t.y = s.y ∧ t.sp = s.sp ∧ t.c = s.c ∧ t.v = s.v ∧ t.i = s.i ∧ t.d = s.d ∧ t.b = s.b ∧
    ∀ addr : Word, memRead t.mem addr = memRead s.mem addr

end Sys2Proof.Claims

open Sys2Proof Sys2Proof.Machine Sys2Proof.Claims Sys2Proof.Safety

/-! ### Encoding and decoding (30_encoding.md) -/

/-- The table of 30_encoding.md section 3, row by row, none elsewhere, and the eight named constants,
which the opcode-constants transaction of 41_fetch_decode_execute.md section 3 returns to the host in
every state, changing nothing. The order in which it lists them is the table's. The byte values are the spec's decision D3, from general knowledge (log entry 3). -/
def Obligations.DecoderTableHasExactlyTheEightRows : Prop :=
  decodeOpcode 0xA9 = some (.lda, .immediate) ∧ decodeOpcode 0xA5 = some (.lda, .zeroPage) ∧
  decodeOpcode 0xB5 = some (.lda, .zeroPageX) ∧ decodeOpcode 0xAD = some (.lda, .absolute) ∧
  decodeOpcode 0xBD = some (.lda, .absoluteX) ∧ decodeOpcode 0xB9 = some (.lda, .absoluteY) ∧
  decodeOpcode 0xA1 = some (.lda, .indirectX) ∧ decodeOpcode 0xB1 = some (.lda, .indirectY) ∧
  (∀ op : Byte, op ∉ ([0xA9, 0xA5, 0xB5, 0xAD, 0xBD, 0xB9, 0xA1, 0xB1] : List Byte) →
    decodeOpcode op = none) ∧
  opcodeConstants = [("LDA_IMM", 0xA9), ("LDA_ZP", 0xA5), ("LDA_ZPX", 0xB5), ("LDA_ABS", 0xAD),
    ("LDA_ABSX", 0xBD), ("LDA_ABSY", 0xB9), ("LDA_INDX", 0xA1), ("LDA_INDY", 0xB1)] ∧
  (∀ s : State, hostCall .opcodeConstants s =
    (.constants [("LDA_IMM", 0xA9), ("LDA_ZP", 0xA5), ("LDA_ZPX", 0xB5), ("LDA_ABS", 0xAD),
      ("LDA_ABSX", 0xBD), ("LDA_ABSY", 0xB9), ("LDA_INDX", 0xA1), ("LDA_INDY", 0xB1)], s))

/-- The bit-field view of the same map (30_encoding.md section 3, marked there as general knowledge and
derived; log entry 3): in scope exactly when op[7:5] = 101 and op[1:0] = 01, the mode being op[4:2]. -/
def Obligations.DecoderMatchesTheBitFields : Prop :=
  ∀ op : Byte, decodeOpcode op =
    if op.toNat / 32 = 5 ∧ op.toNat % 4 = 1 then
      some (.lda, match op.toNat / 4 % 8 with
        | 0 => .indirectX
        | 1 => .zeroPage
        | 2 => .immediate
        | 3 => .absolute
        | 4 => .indirectY
        | 5 => .zeroPageX
        | 6 => .absoluteY
        | _ => .absoluteX)
    else none

/-- Decoding an encoded instruction gives it back, every operand at every value, and leaves what
follows it untouched. Every instruction is well formed (30_encoding.md R70). -/
def Obligations.DecodeOfEncodeIsIdentity : Prop :=
  ∀ (i : Instr) (rest : List Byte), WellFormed i = true ∧ decode (encode i ++ rest) = .ok (i, rest)

/-- A byte string has one reading: what decodes to an instruction is that instruction's encoding. -/
def Obligations.EncodeOfDecodeIsIdentity : Prop :=
  ∀ (bytes rest : List Byte) (i : Instr), decode bytes = .ok (i, rest) → bytes = encode i ++ rest

/-- R59's operand-byte counts, and R69: the length is `1 + n(mode)`, two or three; an unimplemented
opcode has no length: no operand byte is read and PC does not move. -/
def Obligations.InstructionLengthIsOnePlusOperandBytes : Prop :=
  (Mode.operandBytes .immediate = 1 ∧ Mode.operandBytes .zeroPage = 1 ∧
    Mode.operandBytes .zeroPageX = 1 ∧ Mode.operandBytes .absolute = 2 ∧
    Mode.operandBytes .absoluteX = 2 ∧ Mode.operandBytes .absoluteY = 2 ∧
    Mode.operandBytes .indirectX = 1 ∧ Mode.operandBytes .indirectY = 1) ∧
  (∀ (op : Byte) (tail rest : List Byte) (i : Instr), decode (op :: tail) = .ok (i, rest) →
    decodeOpcode op = some (.lda, i.mode) ∧
    (op :: tail).length = 1 + i.mode.operandBytes + rest.length ∧
    (i.mode.operandBytes = 1 ∨ i.mode.operandBytes = 2)) ∧
  (∀ (op : Byte) (tail : List Byte), decodeOpcode op = none →
    decode (op :: tail) = .error (.unimplementedOpcode op)) ∧
  (∀ s : State, decodeOpcode (fetchOpcode s) = none →
    stepReads s = [s.pc] ∧ (hostCall .step s).2.pc = s.pc)

/-- One word of each row of the table, written out from the formats of 30_encoding.md, decodes to the
instruction it stands for (byte values: the spec's decision D3, log entry 3). -/
def Obligations.SpecWordsDecodeAsWritten : Prop :=
  decode [0b10101001, 0x7F] = .ok (.ldaImm 0x7F, []) ∧
  decode [0b10100101, 0x10] = .ok (.ldaZp 0x10, []) ∧
  decode [0b10110101, 0x1E] = .ok (.ldaZpX 0x1E, []) ∧
  decode [0b10101101, 0x34, 0x12] = .ok (.ldaAbs 0x1234, []) ∧
  decode [0b10111101, 0x10, 0x23] = .ok (.ldaAbsX 0x2310, []) ∧
  decode [0b10111001, 0xFF, 0x20] = .ok (.ldaAbsY 0x20FF, []) ∧
  decode [0b10100001, 0x1C] = .ok (.ldaIndX 0x1C, []) ∧
  decode [0b10110001, 0xFF] = .ok (.ldaIndY 0xFF, [])

/-! ### The addressing-mode resolver (40_addressing_modes.md) -/

/-- Immediate, Zero Page and the three absolute modes: source, count and reads. `b2` stands at
`(cur + 1) mod 65536` by the spec's decision D4 (log entry 4). -/
def Obligations.ResolverDirectModes : Prop :=
  ∀ (cur : Word) (s : State),
    let b1 := (byteAt s cur.toNat).toNat
    let second := (cur.toNat + 1) % 65536
    let abs := b1 + 256 * (byteAt s second).toNat
    resolve .immediate cur s.mem s.x s.y = (.imm (byteAt s cur.toNat), 1) ∧
    resolve .zeroPage cur s.mem s.x s.y = (.addr (BitVec.ofNat 16 b1), 1) ∧
    resolve .absolute cur s.mem s.x s.y = (.addr (BitVec.ofNat 16 abs), 2) ∧
    resolve .absoluteX cur s.mem s.x s.y = (.addr (BitVec.ofNat 16 ((abs + s.x.toNat) % 65536)), 2) ∧
    resolve .absoluteY cur s.mem s.x s.y = (.addr (BitVec.ofNat 16 ((abs + s.y.toNat) % 65536)), 2) ∧
    resolverReads .immediate cur s.mem s.x = [cur] ∧
    resolverReads .zeroPage cur s.mem s.x = [cur] ∧
    resolverReads .absolute cur s.mem s.x = [cur, BitVec.ofNat 16 second] ∧
    resolverReads .absoluteX cur s.mem s.x = [cur, BitVec.ofNat 16 second] ∧
    resolverReads .absoluteY cur s.mem s.x = [cur, BitVec.ofNat 16 second]

/-- R76, Zero Page,X: one operand byte, the sum mod 256 in page 0, no read but `b1`; with X = 0 it
behaves as Zero Page. -/
def Obligations.ResolverZeroPageX : Prop :=
  ∀ (cur : Word) (m : Memory) (x y : Byte),
    resolve .zeroPageX cur m x y =
      (.addr (BitVec.ofNat 16 (((memRead m cur).toNat + x.toNat) % 256)), 1) ∧
    resolverReads .zeroPageX cur m x = [cur] ∧
    resolve .zeroPageX cur m 0 y = resolve .zeroPage cur m 0 y

/-- R80 and R81, Indirect,X and Indirect,Y: the pointer, both its bytes in page 0, the address, and the
reads. -/
def Obligations.ResolverIndirectModes : Prop :=
  ∀ (cur : Word) (s : State),
    let b1 := (byteAt s cur.toNat).toNat
    let p := (b1 + s.x.toNat) % 256
    resolve .indirectX cur s.mem s.x s.y = (.addr (BitVec.ofNat 16 (pointerAt s p)), 1) ∧
    resolverReads .indirectX cur s.mem s.x =
      [cur, BitVec.ofNat 16 p, BitVec.ofNat 16 ((p + 1) % 256)] ∧
    resolve .indirectY cur s.mem s.x s.y =
      (.addr (BitVec.ofNat 16 ((pointerAt s b1 + s.y.toNat) % 65536)), 1) ∧
    resolverReads .indirectY cur s.mem s.x =
      [cur, BitVec.ofNat 16 b1, BitVec.ofNat 16 ((b1 + 1) % 256)]

/-- R83: the four page-0 sums reduce mod 256 and stay in page 0; the three 16-bit sums reduce
mod 65536, and each crosses a page for some operands. -/
def Obligations.PageConfinementOfTheSevenSums : Prop :=
  (∀ (zp x : Byte), (eaZeroPageX zp x).toNat = (zp.toNat + x.toNat) % 256 ∧
    (eaZeroPageX zp x).toNat < 256) ∧
  (∀ (cur : Word) (m : Memory) (x : Byte), ∃ lo hi : Word,
    resolverReads .indirectX cur m x = [cur, lo, hi] ∧
    lo.toNat = ((memRead m cur).toNat + x.toNat) % 256 ∧ lo.toNat < 256 ∧
    hi.toNat = (lo.toNat + 1) % 256 ∧ hi.toNat < 256) ∧
  (∀ (cur : Word) (m : Memory) (x : Byte), ∃ lo hi : Word,
    resolverReads .indirectY cur m x = [cur, lo, hi] ∧
    lo.toNat = (memRead m cur).toNat ∧ hi.toNat = (lo.toNat + 1) % 256 ∧ hi.toNat < 256) ∧
  (∀ (cur : Word) (m : Memory) (x y : Byte),
    (∃ ea : Word, (resolve .absoluteX cur m x y).1 = .addr ea ∧
      ea.toNat = ((read16LE m cur).toNat + x.toNat) % 65536) ∧
    (∃ ea : Word, (resolve .absoluteY cur m x y).1 = .addr ea ∧
      ea.toNat = ((read16LE m cur).toNat + y.toNat) % 65536) ∧
    (∃ ea : Word, (resolve .indirectY cur m x y).1 = .addr ea ∧
      ea.toNat = ((readZP16 m (memRead m cur)).toNat + y.toNat) % 65536)) ∧
  (∃ (cur : Word) (m : Memory) (x y : Byte) (ea : Word),
    (resolve .absoluteX cur m x y).1 = .addr ea ∧ hiByte ea ≠ hiByte (read16LE m cur)) ∧
  (∃ (cur : Word) (m : Memory) (x y : Byte) (ea : Word),
    (resolve .absoluteY cur m x y).1 = .addr ea ∧ hiByte ea ≠ hiByte (read16LE m cur)) ∧
  (∃ (cur : Word) (m : Memory) (x y : Byte) (ea : Word),
    (resolve .indirectY cur m x y).1 = .addr ea ∧
    hiByte ea ≠ hiByte (readZP16 m (memRead m cur)))

/-- The two little-endian compositions of 20_memory.md section 3, as numbers; `Read16LE` wraps at
0xFFFF by the spec's decision D4 (log entry 4), `ReadZP16` in page 0. -/
def Obligations.LittleEndianReadCompositions : Prop :=
  ∀ (s : State) (a : Word) (p : Byte),
    (read16LE s.mem a).toNat =
      (byteAt s a.toNat).toNat + 256 * (byteAt s ((a.toNat + 1) % 65536)).toNat ∧
    (readZP16 s.mem p).toNat = pointerAt s p.toNat

/-- The reads of a step, in the spec's order, and their number (40_addressing_modes.md section 3; order
and absence of dummy reads are the spec's decisions D23 and D24, log entry 13). -/
def Obligations.StepReadsFollowTheTable : Prop :=
  ∀ s : State,
    let b1 := BitVec.ofNat 16 ((s.pc.toNat + 1) % 65536)
    let b2 := BitVec.ofNat 16 ((s.pc.toNat + 2) % 65536)
    let zp := (operandByte s 1).toNat
    match decodeOpcode (byteAt s s.pc.toNat) with
    | none => stepReads s = [s.pc]
    | some (.lda, .immediate) => stepReads s = [s.pc, b1]
    | some (.lda, .zeroPage) => stepReads s = [s.pc, b1, BitVec.ofNat 16 zp]
    | some (.lda, .zeroPageX) => stepReads s = [s.pc, b1, BitVec.ofNat 16 ((zp + s.x.toNat) % 256)]
    | some (.lda, .absolute) => stepReads s = [s.pc, b1, b2, BitVec.ofNat 16 (operandWord s)]
    | some (.lda, .absoluteX) =>
      stepReads s = [s.pc, b1, b2, BitVec.ofNat 16 ((operandWord s + s.x.toNat) % 65536)]
    | some (.lda, .absoluteY) =>
      stepReads s = [s.pc, b1, b2, BitVec.ofNat 16 ((operandWord s + s.y.toNat) % 65536)]
    | some (.lda, .indirectX) =>
      stepReads s = [s.pc, b1, BitVec.ofNat 16 ((zp + s.x.toNat) % 256),
        BitVec.ofNat 16 (((zp + s.x.toNat) % 256 + 1) % 256),
        BitVec.ofNat 16 (pointerAt s ((zp + s.x.toNat) % 256))]
    | some (.lda, .indirectY) =>
      stepReads s = [s.pc, b1, BitVec.ofNat 16 zp, BitVec.ofNat 16 ((zp + 1) % 256),
        BitVec.ofNat 16 ((pointerAt s zp + s.y.toNat) % 65536)]

/-! ### The step (41_fetch_decode_execute.md, 60_exceptions.md) -/

/-- A step runs the decoded instruction: when the bytes at PC decode to `i`, the step is `exec i`, which
moves PC past the instruction itself; nothing is added around it. -/
def Obligations.StepRunsTheDecodedInstruction : Prop :=
  ∀ (s : State) (i : Instr) (rest : List Byte),
    decode (bytesAt s.mem s.pc 3) = .ok (i, rest) → WellFormed i = true ∧ step s = exec i s

/-- The step is the six-stage cycle of 41_fetch_decode_execute.md section 1, written in numbers, for
every state. The PC and cursor sums wrap mod 65536 by the spec's decision D4 (DEDUCED, log entry 4). -/
def Obligations.StepIsTheSpecCycle : Prop :=
  ∀ s : State, step s =
    match specStep s with
    | some t => .next t
    | none => .fault .unimplementedOpcode

/-- What a step does depends on no byte of memory but those at the addresses it reads: there is no
dummy read (40_addressing_modes.md section 3; the spec's decision D24, log entry 13). -/
def Obligations.StepDependsOnlyOnTheBytesItReads : Prop :=
  ∀ (s : State) (m : Memory),
    (∀ a ∈ stepReads s, memRead m a = memRead s.mem a) →
    stepReads { s with mem := m } = stepReads s ∧ step { s with mem := m } = withMem m (step s)

/-- Decoding and execution read none of A, Z, N, C, V, I, D, B and SP: A, Z and N are overwritten and the
other six pass through (10_state.md sections 2, 4, 5; 30_encoding.md section 4). -/
def Obligations.StepReadsNoFlagNorAccumulatorNorSP : Prop :=
  ∀ (s : State) (a sp : Byte) (zf nf cf vf idf df bf : Bool),
    step (withInert cf vf idf df bf sp { s with a := a, z := zf, n := nf }) =
      outcomeWithInert cf vf idf df bf sp (step s)

/-- PC advances by one plus the operand-byte count for every successfully decoded instruction
(41_fetch_decode_execute.md section 1); mod 65536 is the spec's decision D4 (log entry 4). -/
def Obligations.SuccessfulStepAdvancesPc : Prop :=
  ∀ s t : State, step s = .next t →
    ∃ mode, decodeOpcode (fetchOpcode s) = some (.lda, mode) ∧
      t.pc.toNat = (s.pc.toNat + 1 + mode.operandBytes) % 65536 ∧
      t.pc.toNat = (s.pc.toNat + specLength mode) % 65536

/-- The frame of all eight instructions, ldaImm, ldaZp, ldaZpX, ldaAbs, ldaAbsX, ldaAbsY, ldaIndX and
ldaIndY: X, Y, SP, C, V, I, D, B and every byte of memory are unchanged (no form stores); A, Z, N and PC
are the ones written. -/
def Obligations.LoadFrame : Prop :=
  ∀ (i : Instr) (s t : State), exec i s = .next t → sameButLoadTargets s t

/-- What a step changes: a successful one only A, Z, N and PC, a failed one nothing (10_state.md
section 9, marked there as derived). -/
def Obligations.StepWritesOnlyAccumulatorZNAndPc : Prop :=
  (∀ s t : State, step s = .next t → sameButLoadTargets s t ∧ t.mem = s.mem) ∧
  (∀ (s : State) (e : Fault), step s = .fault e → (hostCall .step s).2 = s)

/-- R119: no other exception. Once decode has succeeded there is no failure path (every instruction
answers a next state, in every state), and the only fault of a step is `UnimplementedOpcode`, of an
opcode without a row. -/
def Obligations.NoFailurePathAfterDecode : Prop :=
  (∀ (i : Instr) (s : State), ∃ t, exec i s = .next t) ∧
  (∀ (s : State) (mode : Mode), decodeOpcode (fetchOpcode s) = some (.lda, mode) →
    ∃ t, step s = .next t) ∧
  (∀ (s : State) (e : Fault), step s = .fault e →
    e = .unimplementedOpcode ∧ decodeOpcode (fetchOpcode s) = none) ∧
  (∀ (s : State) (r : Refusal), step s ≠ .refused r)

/-- R117: an opcode with no table entry, one of 248 byte values, and no other cause, makes the step
return `Err(UnimplementedOpcode)` with the whole state as it was, reading no operand byte. -/
def Obligations.UnimplementedOpcodeLeavesStateUnchanged : Prop :=
  (∀ s : State, decodeOpcode (fetchOpcode s) = none ↔ step s = .fault .unimplementedOpcode) ∧
  (∀ s : State, decodeOpcode (fetchOpcode s) = none →
    hostCall .step s = (.err .unimplementedOpcode, s) ∧ stepReads s = [s.pc]) ∧
  ((List.range 256).filter fun k => (decodeOpcode (BitVec.ofNat 8 k)).isNone).length = 248

/-- A step answers `Ok` with all its writes (A, Z, N, PC) committed together, or
`Err(UnimplementedOpcode)` with the state exactly as it was; never anything between (00_scope.md
section 4, 41_fetch_decode_execute.md section 1). What is committed is the whole cycle of that section,
its PC and cursor sums wrapping mod 65536 by the spec's decision D4 (DEDUCED, log entry 4). -/
def Obligations.StepCommitsWhollyOrNotAtAll : Prop :=
  ∀ s : State,
    (∃ mode, decodeOpcode (fetchOpcode s) = some (.lda, mode) ∧
      hostCall .step s = (.ok, loaded s (specOperand s mode) (specLength mode))) ∨
    (decodeOpcode (fetchOpcode s) = none ∧ hostCall .step s = (.err .unimplementedOpcode, s))

/-- When a step and a run succeed: a step exactly when the byte at PC is one of the implemented opcodes
(the first applicable case of 60_exceptions.md section 2, marked there as derived; the bit pattern is
general knowledge in the spec, log entry 3), and a run that succeeds for `k` steps succeeds for fewer
(log entry 16). -/
def Obligations.StepSucceedsExactlyOnImplementedOpcodes : Prop :=
  (∀ s : State, stepSucceeds s = true ↔ ∃ t, step s = .next t) ∧
  (∀ s : State, stepSucceeds s = true ↔
    (fetchOpcode s).toNat / 32 = 5 ∧ (fetchOpcode s).toNat % 4 = 1) ∧
  (∀ (j k : Nat) (s : State), j ≤ k → runSucceeds k s = true → runSucceeds j s = true)

/-! ### The eight instructions (43_load_accumulator.md)

Each states the next state, the encoding, and the step from the bytes at PC. The opcode bytes rest on
the spec's decision D3 (log entry 3) and the wraps of PC and cursor on D4 (log entry 4). -/

/-- `LDA #imm8`: the operand byte is the value. -/
def Obligations.LdaImmediateLoads : Prop :=
  (∀ (b1 : Byte) (s : State), exec (.ldaImm b1) s = .next (loaded s b1 2)) ∧
  (∀ b1 : Byte, encode (.ldaImm b1) = [0xA9, b1]) ∧
  (∀ s : State, byteAt s s.pc.toNat = 0xA9 → step s = .next (loaded s (operandByte s 1) 2))

/-- `LDA zp`: the byte at the page-0 address. -/
def Obligations.LdaZeroPageLoads : Prop :=
  (∀ (b1 : Byte) (s : State), exec (.ldaZp b1) s = .next (loaded s (byteAt s b1.toNat) 2)) ∧
  (∀ b1 : Byte, encode (.ldaZp b1) = [0xA5, b1]) ∧
  (∀ s : State, byteAt s s.pc.toNat = 0xA5 →
    step s = .next (loaded s (byteAt s (operandByte s 1).toNat) 2))

/-- `LDA zp,X`: the byte at `(zp + X) mod 256`. -/
def Obligations.LdaZeroPageXLoads : Prop :=
  (∀ (b1 : Byte) (s : State), exec (.ldaZpX b1) s =
    .next (loaded s (byteAt s ((b1.toNat + s.x.toNat) % 256)) 2)) ∧
  (∀ b1 : Byte, encode (.ldaZpX b1) = [0xB5, b1]) ∧
  (∀ s : State, byteAt s s.pc.toNat = 0xB5 →
    step s = .next (loaded s (byteAt s (((operandByte s 1).toNat + s.x.toNat) % 256)) 2))

/-- `LDA abs`: the byte at the little-endian address. -/
def Obligations.LdaAbsoluteLoads : Prop :=
  (∀ (abs : Word) (s : State), exec (.ldaAbs abs) s = .next (loaded s (byteAt s abs.toNat) 3)) ∧
  (∀ b1 b2 : Byte, encode (.ldaAbs (BitVec.ofNat 16 (b1.toNat + 256 * b2.toNat))) = [0xAD, b1, b2]) ∧
  (∀ s : State, byteAt s s.pc.toNat = 0xAD → step s = .next (loaded s (byteAt s (operandWord s)) 3))

/-- `LDA abs,X`: the byte at `(abs + X) mod 65536`. -/
def Obligations.LdaAbsoluteXLoads : Prop :=
  (∀ (abs : Word) (s : State), exec (.ldaAbsX abs) s =
    .next (loaded s (byteAt s ((abs.toNat + s.x.toNat) % 65536)) 3)) ∧
  (∀ b1 b2 : Byte, encode (.ldaAbsX (BitVec.ofNat 16 (b1.toNat + 256 * b2.toNat))) = [0xBD, b1, b2]) ∧
  (∀ s : State, byteAt s s.pc.toNat = 0xBD →
    step s = .next (loaded s (byteAt s ((operandWord s + s.x.toNat) % 65536)) 3))

/-- `LDA abs,Y`: the byte at `(abs + Y) mod 65536`. -/
def Obligations.LdaAbsoluteYLoads : Prop :=
  (∀ (abs : Word) (s : State), exec (.ldaAbsY abs) s =
    .next (loaded s (byteAt s ((abs.toNat + s.y.toNat) % 65536)) 3)) ∧
  (∀ b1 b2 : Byte, encode (.ldaAbsY (BitVec.ofNat 16 (b1.toNat + 256 * b2.toNat))) = [0xB9, b1, b2]) ∧
  (∀ s : State, byteAt s s.pc.toNat = 0xB9 →
    step s = .next (loaded s (byteAt s ((operandWord s + s.y.toNat) % 65536)) 3))

/-- `LDA (zp,X)`: the byte at the pointer held at `(zp + X) mod 256`. -/
def Obligations.LdaIndirectXLoads : Prop :=
  (∀ (b1 : Byte) (s : State), exec (.ldaIndX b1) s =
    .next (loaded s (byteAt s (pointerAt s ((b1.toNat + s.x.toNat) % 256))) 2)) ∧
  (∀ b1 : Byte, encode (.ldaIndX b1) = [0xA1, b1]) ∧
  (∀ s : State, byteAt s s.pc.toNat = 0xA1 →
    step s = .next (loaded s
      (byteAt s (pointerAt s (((operandByte s 1).toNat + s.x.toNat) % 256))) 2))

/-- `LDA (zp),Y`: the byte at the pointer held at `zp`, plus Y, mod 65536. -/
def Obligations.LdaIndirectYLoads : Prop :=
  (∀ (b1 : Byte) (s : State), exec (.ldaIndY b1) s =
    .next (loaded s (byteAt s ((pointerAt s b1.toNat + s.y.toNat) % 65536)) 2)) ∧
  (∀ b1 : Byte, encode (.ldaIndY b1) = [0xB1, b1]) ∧
  (∀ s : State, byteAt s s.pc.toNat = 0xB1 →
    step s = .next (loaded s
      (byteAt s ((pointerAt s (operandByte s 1).toNat + s.y.toNat) % 65536)) 2))

/-! ### Flags (42_flag_update.md) -/

/-- R102: Z is set exactly for a zero result, one of the 256 values, and after every successful step it
says whether A is zero. -/
def Obligations.ZeroFlagSaysAccumulatorIsZero : Prop :=
  (∀ r : Byte, (flagsFromResult r).1 = decide (r.toNat = 0)) ∧
  ((List.range 256).filter fun k => (flagsFromResult (BitVec.ofNat 8 k)).1).length = 1 ∧
  (∀ s t : State, step s = .next t → t.z = decide (t.a.toNat = 0))

/-- N is bit 7 of the result, the value being at least 128, and after every successful step it is bit 7
of A; Z and N are then never both set (42_flag_update.md; the last clause is marked there as derived). -/
def Obligations.NegativeFlagIsBitSevenOfAccumulator : Prop :=
  (∀ r : Byte, (flagsFromResult r).2 = r.getLsbD 7 ∧ (flagsFromResult r).2 = decide (128 ≤ r.toNat) ∧
    ¬((flagsFromResult r).1 = true ∧ (flagsFromResult r).2 = true)) ∧
  (∀ s t : State, step s = .next t →
    t.n = t.a.getLsbD 7 ∧ t.n = decide (128 ≤ t.a.toNat) ∧ ¬(t.z = true ∧ t.n = true))

/-- C and V: unchanged by every step, and changed by no transaction but the host's write of that flag
(42_flag_update.md; the spec's decision D16). -/
def Obligations.CarryAndOverflowChangeOnlyByHostWrite : Prop :=
  (∀ s : State, (hostCall .step s).2.c = s.c ∧ (hostCall .step s).2.v = s.v) ∧
  (∀ (c : HostCall) (s : State), (hostCall c s).2.c ≠ s.c → ∃ bit, c = .writeFlag .c bit) ∧
  (∀ (c : HostCall) (s : State), (hostCall c s).2.v ≠ s.v → ∃ bit, c = .writeFlag .v bit)

/-- R106: for every step, successful or not, I, D and B are unchanged. -/
def Obligations.InterruptDecimalBreakUnchangedByEveryStep : Prop :=
  ∀ s : State, (hostCall .step s).2.i = s.i ∧ (hostCall .step s).2.d = s.d ∧
    (hostCall .step s).2.b = s.b

/-! ### Memory (20_memory.md) -/

/-- R39: a read returns `M[addr]`, never fails and changes nothing, so a second read gives the same. -/
def Obligations.MemoryReadIsPure : Prop :=
  ∀ (addr : Word) (s : State),
    hostCall (.memRead addr) s = (.byte (byteAt s addr.toNat), s) ∧
    hostCall (.memRead addr) (hostCall (.memRead addr) s).2 = hostCall (.memRead addr) s

/-- R40: a write stores the value mod 256 at its address, changes nothing else, never fails, and the
byte stays until a later write to that address: no transaction but one changes it. The premise is the
invariant that rules out lists no run reaches (the model's representation, log entry 14). -/
def Obligations.MemoryWriteStoresOneByte : Prop :=
  ∀ (addr : Word) (v : Nat) (s : State), StateInv s →
    (hostCall (.memWrite addr v) s).1 = .done ∧
    (memRead (hostCall (.memWrite addr v) s).2.mem addr).toNat = v % 256 ∧
    (∀ other : Word, other ≠ addr →
      memRead (hostCall (.memWrite addr v) s).2.mem other = memRead s.mem other) ∧
    (hostCall (.memWrite addr v) s).2 = { s with mem := (hostCall (.memWrite addr v) s).2.mem } ∧
    (∀ c : HostCall, (∀ v', c ≠ .memWrite addr v') →
      (memRead (hostCall c (hostCall (.memWrite addr v) s).2).2.mem addr).toNat = v % 256)

/-- Only `Memory.write` to an address changes the byte there (20_memory.md section 2, marked there as
derived). -/
def Obligations.OnlyHostWritesChangeMemory : Prop :=
  ∀ (c : HostCall) (s : State) (addr : Word),
    memRead (hostCall c s).2.mem addr ≠ memRead s.mem addr → ∃ v, c = .memWrite addr v

/-- The canonical form is one list per memory: two canonical memories that read alike at every address
are the same list (the model's representation, log entry 14). -/
def Obligations.CanonicalMemoriesThatReadAlikeAreEqual : Prop :=
  ∀ m m' : Memory, Memory.wf m = true → Memory.wf m' = true →
    (∀ a : Word, memRead m a = memRead m' a) → m = m'

/-- First clause, R50: after any sequence of transactions, every read returns the value of the last
write to its address in that order, or 0x00 if there was none since reset. Second clause, derived and
beyond R50's words: from any state whose memory is in the model's canonical form (DESIGN CHOICE, log
entry 14), the last write, or the byte that was there. -/
def Obligations.ReadsReturnTheLastWrite : Prop :=
  (∀ (resetAddr : Word) (resetSP : Byte) (calls : List HostCall) (a : Word),
    memRead (hostCalls calls (State.construct resetAddr resetSP)).mem a =
      (lastWrite a calls).getD 0x00) ∧
  (∀ (s : State) (calls : List HostCall) (a : Word), StateInv s →
    memRead (hostCalls calls s).mem a = (lastWrite a calls).getD (memRead s.mem a))

/-! ### Invariants -/

/-- Every step keeps the canonical form of memory, which is the model's representation (DESIGN CHOICE,
log entry 14). -/
def Obligations.StepKeepsCanonicalMemory : Prop :=
  ∀ s t : State, StateInv s → step s = .next t → StateInv t

/-- Every transaction of the host, and every action on a set of instances, keeps the canonical form of
memory, which is the model's representation (DESIGN CHOICE, log entry 14). -/
def Obligations.EveryTransactionKeepsCanonicalMemory : Prop :=
  (∀ (c : HostCall) (s : State), StateInv s → StateInv (hostCall c s).2) ∧
  (∀ (act : PlatformAction) (cores : List State), (∀ s ∈ cores, StateInv s) →
    ∀ s ∈ (platformAct act cores).2, StateInv s)

/-- The invariant, the canonical form that is the model's own representation of memory (DESIGN CHOICE,
log entry 14), holds after construction with any parameters, and at reset. -/
def Obligations.ConstructionMeetsTheInvariant : Prop :=
  (∀ (resetAddr : Word) (resetSP : Byte), StateInv (State.construct resetAddr resetSP)) ∧ StateInv State.reset

/-! ### Reset (70_reset_and_hazards.md) -/

/-- R34 and R49: every piece of state after construction, for every `RESET_ADDR` and `RESET_SP`; PC is
the address itself. -/
def Obligations.ConstructionSetsTheResetValues : Prop :=
  ∀ (resetAddr : Word) (resetSP : Byte),
    let s := State.construct resetAddr resetSP
    s.a = 0x00 ∧ s.x = 0x00 ∧ s.y = 0x00 ∧ s.pc = resetAddr ∧ s.sp = resetSP ∧
    s.z = false ∧ s.n = false ∧ s.c = false ∧ s.v = false ∧ s.i = false ∧ s.d = false ∧
    s.b = false ∧ ∀ a : Word, memRead s.mem a = 0x00

/-- A step on a freshly constructed instance fails, whatever the parameters (70_reset_and_hazards.md
section 1, marked there as derived). -/
def Obligations.StepOnFreshInstanceFails : Prop :=
  ∀ (resetAddr : Word) (resetSP : Byte),
    hostCall .step (State.construct resetAddr resetSP) =
      (.err .unimplementedOpcode, State.construct resetAddr resetSP)

/-- The end-to-end scenario of 95_test_vectors.md L1-9 with any operand byte: after the host writes A9
and `b` at the reset address, the first step loads `b` from there (byte value: D3, log entry 3). -/
def Obligations.FirstStepRunsAtTheResetAddress : Prop :=
  ∀ (resetAddr : Word) (resetSP b : Byte),
    let fresh := State.construct resetAddr resetSP
    let s := hostCalls (writesAt resetAddr [0xA9, b]) fresh
    ∃ t, hostCall .step s = (.ok, t) ∧ t.a = b ∧ t.z = decide (b.toNat = 0) ∧
      t.n = decide (128 ≤ b.toNat) ∧ t.pc.toNat = (resetAddr.toNat + 2) % 65536

/-! ### The host interface (41_fetch_decode_execute.md section 3) -/

/-- A host write is seen by the next step (70_reset_and_hazards.md section 3). Bytes of any instruction
written at PC are the instruction the step runs; a written PC is where it fetches; a written X or Y is
the index it uses; a written A or flag is what an accessor reads. The reduction of a written value
mod 65536 or mod 256 is the spec's decision D17 (DEDUCED, log entry 10), and the wraps of PC, of the
operand cursor and of the addresses written from PC on are its decision D4 (DEDUCED, log entry 4). -/
def Obligations.HostWritesAreVisibleToTheNextStep : Prop :=
  (∀ (s : State) (i : Instr), StateInv s →
    step (hostCalls (writesAt s.pc (encode i)) s) = exec i (hostCalls (writesAt s.pc (encode i)) s)) ∧
  (∀ (s : State) (v : Nat), fetchOpcode (hostCall (.writePc v) s).2 = byteAt s (v % 65536)) ∧
  (∀ (s : State) (zp : Byte) (v : Nat), exec (.ldaZpX zp) (hostCall (.writeReg .x v) s).2 =
    .next (loaded (hostCall (.writeReg .x v) s).2 (byteAt s ((zp.toNat + v) % 256)) 2)) ∧
  (∀ (s : State) (abs : Word) (v : Nat), exec (.ldaAbsY abs) (hostCall (.writeReg .y v) s).2 =
    .next (loaded (hostCall (.writeReg .y v) s).2 (byteAt s ((abs.toNat + v % 256) % 65536)) 3)) ∧
  (∀ (s : State) (v : Nat), (hostCall (.readReg .a) (hostCall (.writeReg .a v) s).2).1 =
    .byte (BitVec.ofNat 8 (v % 256))) ∧
  (∀ (s : State) (f : Flag) (bit : Bool),
    (hostCall (.readFlag f) (hostCall (.writeFlag f bit) s).2).1 = .bit bit)

/-- The accessors of A, X, Y, PC and the seven flags: a read returns the current value of the state's
own field of that name and changes nothing; a write stores its value mod 256, mod 65536 or one bit in
that field, and no other register, flag or byte of memory changes; so a read after a write gives what
was written to that place, or what was there (10_state.md section 8; the reduction is the spec's
decision D17, DEDUCED, log entry 10). -/
def Obligations.AccessorsReadAndWriteOnePlace : Prop :=
  (∀ s : State,
    hostCall (.readReg .a) s = (.byte s.a, s) ∧ hostCall (.readReg .x) s = (.byte s.x, s) ∧
    hostCall (.readReg .y) s = (.byte s.y, s) ∧ hostCall .readPc s = (.word s.pc, s) ∧
    hostCall (.readFlag .z) s = (.bit s.z, s) ∧ hostCall (.readFlag .n) s = (.bit s.n, s) ∧
    hostCall (.readFlag .c) s = (.bit s.c, s) ∧ hostCall (.readFlag .v) s = (.bit s.v, s) ∧
    hostCall (.readFlag .i) s = (.bit s.i, s) ∧ hostCall (.readFlag .d) s = (.bit s.d, s) ∧
    hostCall (.readFlag .b) s = (.bit s.b, s)) ∧
  (∀ (v : Nat) (s : State),
    hostCall (.writeReg .a v) s = (.done, { s with a := BitVec.ofNat 8 (v % 256) }) ∧
    hostCall (.writeReg .x v) s = (.done, { s with x := BitVec.ofNat 8 (v % 256) }) ∧
    hostCall (.writeReg .y v) s = (.done, { s with y := BitVec.ofNat 8 (v % 256) }) ∧
    hostCall (.writePc v) s = (.done, { s with pc := BitVec.ofNat 16 (v % 65536) })) ∧
  (∀ (bit : Bool) (s : State),
    hostCall (.writeFlag .z bit) s = (.done, { s with z := bit }) ∧
    hostCall (.writeFlag .n bit) s = (.done, { s with n := bit }) ∧
    hostCall (.writeFlag .c bit) s = (.done, { s with c := bit }) ∧
    hostCall (.writeFlag .v bit) s = (.done, { s with v := bit }) ∧
    hostCall (.writeFlag .i bit) s = (.done, { s with i := bit }) ∧
    hostCall (.writeFlag .d bit) s = (.done, { s with d := bit }) ∧
    hostCall (.writeFlag .b bit) s = (.done, { s with b := bit })) ∧
  (∀ (r r' : ByteReg) (v : Nat) (s : State),
    (hostCall (.readReg r) s).2 = s ∧ (hostCall (.writeReg r v) s).1 = .done ∧
    (hostCall (.readReg r') (hostCall (.writeReg r v) s).2).1 =
      (if r' = r then .byte (BitVec.ofNat 8 (v % 256)) else (hostCall (.readReg r') s).1)) ∧
  (∀ (f f' : Flag) (bit : Bool) (s : State),
    (hostCall (.readFlag f) s).2 = s ∧ (hostCall (.writeFlag f bit) s).1 = .done ∧
    (hostCall (.readFlag f') (hostCall (.writeFlag f bit) s).2).1 =
      (if f' = f then .bit bit else (hostCall (.readFlag f') s).1)) ∧
  (∀ (v : Nat) (s : State),
    (hostCall .readPc s).2 = s ∧ (hostCall (.writePc v) s).1 = .done ∧
    (hostCall .readPc (hostCall (.writePc v) s).2).1 = .word (BitVec.ofNat 16 (v % 65536)) ∧
    (hostCall (.writePc v) s).2 = { s with pc := (hostCall (.writePc v) s).2.pc }) ∧
  (∀ (r : ByteReg) (v : Nat) (s : State) (f : Flag),
    let t := (hostCall (.writeReg r v) s).2
    t.pc = s.pc ∧ t.sp = s.sp ∧ t.mem = s.mem ∧ readFlag f t = readFlag f s) ∧
  (∀ (f : Flag) (bit : Bool) (s : State) (r : ByteReg),
    let t := (hostCall (.writeFlag f bit) s).2
    t.pc = s.pc ∧ t.sp = s.sp ∧ t.mem = s.mem ∧ readReg r t = readReg r s)

/-- SP keeps its construction value through every transaction, and no reply depends on it (10_state.md
section 4; the spec's decision D20, log entry 9). -/
def Obligations.StackPointerIsUnobservableAndConstant : Prop :=
  ∀ (c : HostCall) (s : State) (sp : Byte),
    (hostCall c s).2.sp = s.sp ∧
    hostCall c { s with sp := sp } = ((hostCall c s).1, { (hostCall c s).2 with sp := sp })

/-- After an error, as long as the host leaves PC and the byte there alone, whatever else it does, the
next step returns the same error with the state unchanged (60_exceptions.md section 3, marked there as
derived). -/
def Obligations.ErrorRepeatsUntilHostChangesPcOrOpcode : Prop :=
  ∀ (s : State) (calls : List HostCall), step s = .fault .unimplementedOpcode →
    (hostCalls calls s).pc = s.pc →
    memRead (hostCalls calls s).mem s.pc = memRead s.mem s.pc →
    hostCall .step (hostCalls calls s) = (.err .unimplementedOpcode, hostCalls calls s)

/-- How a run of `k` steps ends (41_fetch_decode_execute.md section 4; the spec's decision D25, log
entry 16): at the k-th successful step, or at the first error, which is recorded with the number of
steps done and the state it left; and it ends in one of these two ways. -/
def Obligations.RunEndsAtTheLastStepOrTheFirstError : Prop :=
  (∀ (k : Nat) (s : State), (∃ t, runSteps k s = .completed t) ∨
    ∃ done t, runSteps k s = .err done .unimplementedOpcode t) ∧
  (∀ (k : Nat) (s t : State), runSteps k s = .completed t ↔ Host.Core.run core k s = .next t) ∧
  (∀ (k done : Nat) (e : Fault) (s t : State), runSteps k s = .err done e t →
    done < k ∧ runSteps done s = .completed t ∧ step t = .fault e)

/-- R55 and R128: instances share nothing. A transaction with one leaves every other as it was and
answers as if it were alone; constructing one leaves all others as they were and gives the new one its
own construction state. -/
def Obligations.InstancesAreIsolated : Prop :=
  (∀ (k j : Nat) (c : HostCall) (cores : List State), j ≠ k →
    (platformAct (.call k c) cores).2[j]? = cores[j]?) ∧
  (∀ (k : Nat) (c : HostCall) (cores : List State) (s : State), cores[k]? = some s →
    (platformAct (.call k c) cores).1 = some (hostCall c s).1 ∧
    (platformAct (.call k c) cores).2[k]? = some (hostCall c s).2 ∧
    (platformAct (.call k c) cores).2.length = cores.length) ∧
  (∀ (resetAddr : Word) (resetSP : Byte) (cores : List State),
    (∀ j, j < cores.length →
      (platformAct (.construct resetAddr resetSP) cores).2[j]? = cores[j]?) ∧
    (platformAct (.construct resetAddr resetSP) cores).2[cores.length]? =
      some (State.construct resetAddr resetSP))
end

