-- ==== Sys2Proof/Laws/Decode.lean ====
section
/-! SUPPORT. The byte helpers, the table against `Mode.opcode`, and operand assembly. -/

namespace Sys2Proof

theorem joinBytes_toNat (hi lo : Byte) : (joinBytes hi lo).toNat = lo.toNat + 256 * hi.toNat := by
  have h : (joinBytes hi lo).toNat = hi.toNat <<< 8 ||| lo.toNat := BitVec.toNat_append hi lo
  rw [h, ← Nat.shiftLeft_add_eq_or_of_lt lo.isLt, Nat.shiftLeft_eq]
  omega

theorem loByte_toNat (w : Word) : (loByte w).toNat = w.toNat % 256 := by
  simp [loByte, BitVec.extractLsb'_toNat]

theorem hiByte_toNat (w : Word) : (hiByte w).toNat = w.toNat / 256 := by
  have := w.isLt
  simp only [hiByte, BitVec.extractLsb'_toNat, Nat.shiftRight_eq_div_pow]
  omega

@[simp] theorem joinBytes_hi_lo (w : Word) : joinBytes (hiByte w) (loByte w) = w := by
  apply BitVec.eq_of_toNat_eq
  rw [joinBytes_toNat, loByte_toNat, hiByte_toNat]
  omega

@[simp] theorem loByte_joinBytes (hi lo : Byte) : loByte (joinBytes hi lo) = lo := by
  apply BitVec.eq_of_toNat_eq
  have := lo.isLt
  rw [loByte_toNat, joinBytes_toNat]
  omega

@[simp] theorem hiByte_joinBytes (hi lo : Byte) : hiByte (joinBytes hi lo) = hi := by
  apply BitVec.eq_of_toNat_eq
  have := lo.isLt
  rw [hiByte_toNat, joinBytes_toNat]
  omega

/-- The encoder's opcode byte of a mode is the table's. -/
@[simp] theorem decodeOpcode_opcode (m : Mode) : decodeOpcode m.opcode = some (.lda, m) := by
  cases m <;> rfl

/-- The table has no second opcode for a mode. -/
theorem opcode_of_decodeOpcode {op : Byte} {o : Operation} {m : Mode}
    (h : decodeOpcode op = some (o, m)) : op = m.opcode := by
  simp only [decodeOpcode, opcodeMap, lookupOpcode] at h
  repeat' split at h
  all_goals
    first
    | (cases h; symm; assumption)
    | cases h

@[simp] theorem assemble_mode (m : Mode) (b1 b2 : Byte) : (assemble m b1 b2).mode = m := by
  cases m <;> rfl

@[simp] theorem operandList_length (i : Instr) : i.operandList.length = i.mode.operandBytes := by
  cases i <;> rfl

/-- The operand bytes of a mode are one or two. -/
theorem operandBytes_eq (m : Mode) : m.operandBytes = 1 ∨ m.operandBytes = 2 := by
  cases m <;> simp [Mode.operandBytes]

end Sys2Proof
end

