-- ==== Sys2Proof/Laws/Arith.lean ====
section
/-! SUPPORT. The operand, flag and program-counter functions as numbers. -/

namespace Sys2Proof.Machine

theorem zext16_toNat (b : Byte) : (zext16 b).toNat = b.toNat := by
  have := b.isLt
  simp only [zext16, BitVec.toNat_setWidth]
  omega

theorem zeroPageIndex_toNat (zp index : Byte) :
    (zeroPageIndex zp index).toNat = (zp.toNat + index.toNat) % 256 :=
  BitVec.toNat_add zp index

theorem eaZeroPage_toNat (zp : Byte) : (eaZeroPage zp).toNat = zp.toNat := zext16_toNat zp

theorem eaZeroPageX_toNat (zp x : Byte) : (eaZeroPageX zp x).toNat = (zp.toNat + x.toNat) % 256 := by
  rw [eaZeroPageX, zext16_toNat, zeroPageIndex_toNat]

theorem indexWord_toNat (base : Word) (index : Byte) :
    (indexWord base index).toNat = (base.toNat + index.toNat) % 65536 := by
  rw [indexWord, BitVec.toNat_add, zext16_toNat]

theorem nextPc_toNat (pc : Word) (k : Nat) : (nextPc pc k).toNat = (pc.toNat + 1 + k) % 65536 := by
  have h1 : (1 : Word).toNat = 1 := rfl
  simp only [nextPc, BitVec.toNat_add, h1, BitVec.toNat_ofNat]
  omega

theorem zeroFlag_eq (r : Byte) : zeroFlag r = decide (r.toNat = 0) := by
  rw [zeroFlag, Bool.eq_iff_iff, beq_iff_eq, decide_eq_true_eq]
  exact ⟨fun h => by rw [h]; rfl, fun h => BitVec.eq_of_toNat_eq h⟩

theorem negativeFlag_eq (r : Byte) : negativeFlag r = decide (128 ≤ r.toNat) := by
  have h : r.getLsbD 7 = r.msb := rfl
  rw [negativeFlag, h, BitVec.msb_eq_decide]

/-- A 16-bit word is its number. -/
theorem word_eq_ofNat {w : Word} {k : Nat} (h : w.toNat = k) : w = BitVec.ofNat 16 k := by
  rw [← h, BitVec.ofNat_toNat, BitVec.setWidth_eq]

/-! ### Addresses as numbers (20_memory.md R44, 40_addressing_modes.md R84) -/

theorem word_succ (w : Word) : w + 1 = BitVec.ofNat 16 ((w.toNat + 1) % 65536) :=
  word_eq_ofNat (BitVec.toNat_add w 1)

theorem word_succ_succ (w : Word) : w + 1 + 1 = BitVec.ofNat 16 ((w.toNat + 2) % 65536) := by
  apply word_eq_ofNat
  have h1 : (1 : Word).toNat = 1 := rfl
  rw [BitVec.toNat_add, BitVec.toNat_add]
  omega

theorem byte_succ_toNat (b : Byte) : (b + 1).toNat = (b.toNat + 1) % 256 := BitVec.toNat_add b 1

theorem zext16_eq_ofNat (b : Byte) : zext16 b = BitVec.ofNat 16 b.toNat :=
  word_eq_ofNat (zext16_toNat b)

theorem read16LE_toNat (m : Memory) (a : Word) :
    (read16LE m a).toNat = (memRead m a).toNat + 256 * (memRead m (a + 1)).toNat :=
  joinBytes_toNat _ _

theorem readZP16_toNat (m : Memory) (p : Byte) :
    (readZP16 m p).toNat = (memRead m (zext16 p)).toNat + 256 * (memRead m (zext16 (p + 1))).toNat :=
  joinBytes_toNat _ _

/-- The operand addresses of a mode with one operand byte. -/
theorem operandAddrs_one {mode : Mode} (h : mode.operandBytes = 1) (cur : Word) :
    operandAddrs mode cur = [cur] := by
  simp [operandAddrs, h, List.range_succ]

/-- The operand addresses of a mode with two operand bytes. -/
theorem operandAddrs_two {mode : Mode} (h : mode.operandBytes = 2) (cur : Word) :
    operandAddrs mode cur = [cur, cur + 1] := by
  simp [operandAddrs, h, List.range_succ]

end Sys2Proof.Machine
end

