-- ==== Sys2Proof/Laws/Memory.lean ====
section
/-! SUPPORT. What the memory operations do: read after write, other addresses, the canonical form kept,
and canonical memories determined by their reads. -/

namespace Sys2Proof.Machine

@[simp] theorem Memory.read_nil (a : Nat) : Memory.read [] a = Memory.unlisted := rfl

@[simp] theorem Memory.read_cons (k : Nat) (w : Byte) (rest : Memory) (a : Nat) :
    Memory.read ((k, w) :: rest) a = if k = a then w else Memory.read rest a := rfl

/-- A weaker lower bound still bounds. -/
theorem Memory.wfFrom_mono {lo lo' : Nat} (h : lo' ≤ lo) {m : Memory} (hm : Memory.wfFrom lo m = true) :
    Memory.wfFrom lo' m = true := by
  cases m with
  | nil => rfl
  | cons e rest =>
    simp only [Memory.wfFrom, Bool.and_eq_true, decide_eq_true_eq] at hm ⊢
    exact ⟨⟨⟨h.trans hm.1.1.1, hm.1.1.2⟩, hm.1.2⟩, hm.2⟩

/-- Below its lower bound a canonical memory lists nothing. -/
theorem Memory.read_below {lo a : Nat} (h : a < lo) {m : Memory} (hm : Memory.wfFrom lo m = true) :
    Memory.read m a = Memory.unlisted := by
  induction m generalizing lo with
  | nil => rfl
  | cons e rest ih =>
    obtain ⟨k, w⟩ := e
    simp only [Memory.wfFrom, Bool.and_eq_true, decide_eq_true_eq] at hm
    have hka : k ≠ a := by omega
    simp only [Memory.read_cons, if_neg hka]
    exact ih (by omega) hm.2

theorem Memory.read_entry_other {a b : Nat} (h : a ≠ b) (v : Byte) (rest : Memory) :
    Memory.read (Memory.entry a v rest) b = Memory.read rest b := by
  unfold Memory.entry
  split
  · rfl
  · simp [h]

theorem Memory.read_entry_same {a lo : Nat} (h : a < lo) (v : Byte) {rest : Memory}
    (hm : Memory.wfFrom lo rest = true) : Memory.read (Memory.entry a v rest) a = v := by
  unfold Memory.entry
  split
  · next hv => rw [Memory.read_below h hm, hv]
  · simp

theorem Memory.entry_wf {a lo : Nat} (h : lo ≤ a) (ha : a < Memory.size) (v : Byte) {rest : Memory}
    (hm : Memory.wfFrom (a + 1) rest = true) : Memory.wfFrom lo (Memory.entry a v rest) = true := by
  unfold Memory.entry
  split
  · exact Memory.wfFrom_mono (by omega) hm
  · next hv => simp [Memory.wfFrom, h, ha, hv, hm]

/-- A write leaves every other address alone, in any list. -/
theorem Memory.read_write_other {a b : Nat} (h : a ≠ b) (m : Memory) (v : Byte) :
    Memory.read (Memory.write m a v) b = Memory.read m b := by
  induction m with
  | nil => exact Memory.read_entry_other h v []
  | cons e rest ih =>
    obtain ⟨k, w⟩ := e
    simp only [Memory.write]
    split
    · exact Memory.read_entry_other h v _
    · split
      · next hak =>
        have hkb : k ≠ b := by omega
        simp only [Memory.read_cons, if_neg hkb]
        exact Memory.read_entry_other h v rest
      · simp only [Memory.read_cons, ih]

/-- In a canonical memory a write is what the next read of its address gives. -/
theorem Memory.read_write_same {lo : Nat} {m : Memory} (hm : Memory.wfFrom lo m = true) (a : Nat)
    (v : Byte) : Memory.read (Memory.write m a v) a = v := by
  induction m generalizing lo with
  | nil => exact Memory.read_entry_same (lo := a + 1) (by omega) v rfl
  | cons e rest ih =>
    obtain ⟨k, w⟩ := e
    have hm' := hm
    simp only [Memory.wfFrom, Bool.and_eq_true, decide_eq_true_eq] at hm'
    simp only [Memory.write]
    split
    · next hak =>
      refine Memory.read_entry_same (lo := k) hak v ?_
      simp only [Memory.wfFrom, Bool.and_eq_true, decide_eq_true_eq]
      exact ⟨⟨⟨le_refl k, hm'.1.1.2⟩, hm'.1.2⟩, hm'.2⟩
    · split
      · next hak => exact Memory.read_entry_same (lo := k + 1) (by omega) v hm'.2
      · next hak =>
        have hka : k ≠ a := fun h => hak h.symm
        simp only [Memory.read_cons, if_neg hka]
        exact ih hm'.2

/-- A write inside the address space keeps the canonical form. -/
theorem Memory.write_wfFrom {lo a : Nat} (h : lo ≤ a) (ha : a < Memory.size) {m : Memory}
    (hm : Memory.wfFrom lo m = true) (v : Byte) : Memory.wfFrom lo (Memory.write m a v) = true := by
  induction m generalizing lo with
  | nil => exact Memory.entry_wf h ha v rfl
  | cons e rest ih =>
    obtain ⟨k, w⟩ := e
    have hm' := hm
    simp only [Memory.wfFrom, Bool.and_eq_true, decide_eq_true_eq] at hm'
    simp only [Memory.write]
    split
    · next hak =>
      refine Memory.entry_wf h ha v ?_
      simp only [Memory.wfFrom, Bool.and_eq_true, decide_eq_true_eq]
      exact ⟨⟨⟨by omega, hm'.1.1.2⟩, hm'.1.2⟩, hm'.2⟩
    · split
      · next hak => exact Memory.entry_wf h ha v (by rw [hak]; exact hm'.2)
      · next hka hak =>
        simp only [Memory.wfFrom, Bool.and_eq_true, decide_eq_true_eq]
        exact ⟨hm'.1, ih (by omega) hm'.2⟩

/-- Two canonical memories with the same bytes are the same list. -/
theorem Memory.ext_of_wfFrom {lo : Nat} {m m' : Memory} (hm : Memory.wfFrom lo m = true)
    (hm' : Memory.wfFrom lo m' = true) (h : ∀ a, a < Memory.size → Memory.read m a = Memory.read m' a) :
    m = m' := by
  induction m generalizing lo m' with
  | nil =>
    cases m' with
    | nil => rfl
    | cons e rest =>
      simp only [Memory.wfFrom, Bool.and_eq_true, decide_eq_true_eq, bne_iff_ne] at hm'
      have := h e.1 hm'.1.1.2
      simp only [Memory.read, if_pos] at this
      exact absurd this.symm hm'.1.2
  | cons e rest ih =>
    obtain ⟨k, w⟩ := e
    simp only [Memory.wfFrom, Bool.and_eq_true, decide_eq_true_eq, bne_iff_ne] at hm
    obtain ⟨⟨⟨hlo, hk⟩, hw⟩, hrest⟩ := hm
    cases m' with
    | nil =>
      have := h k hk
      simp only [Memory.read_cons, if_pos, Memory.read_nil] at this
      exact absurd this hw
    | cons e' rest' =>
      obtain ⟨k', w'⟩ := e'
      simp only [Memory.wfFrom, Bool.and_eq_true, decide_eq_true_eq, bne_iff_ne] at hm'
      obtain ⟨⟨⟨hlo', hk'⟩, hw'⟩, hrest'⟩ := hm'
      have hkk : k = k' := by
        rcases Nat.lt_trichotomy k k' with hlt | heq | hgt
        · have := h k hk
          rw [Memory.read_cons, if_pos rfl, Memory.read_cons, if_neg (by omega),
            Memory.read_below (by omega) hrest'] at this
          exact absurd this hw
        · exact heq
        · have := h k' hk'
          rw [Memory.read_cons, if_neg (by omega), Memory.read_below (by omega) hrest,
            Memory.read_cons, if_pos rfl] at this
          exact absurd this.symm hw'
      subst hkk
      have hww : w = w' := by
        have := h k hk
        rwa [Memory.read_cons, if_pos rfl, Memory.read_cons, if_pos rfl] at this
      subst hww
      congr 1
      refine ih hrest hrest' fun a ha => ?_
      by_cases hka : k = a
      · subst hka
        rw [Memory.read_below (Nat.lt_succ_self k) hrest, Memory.read_below (Nat.lt_succ_self k) hrest']
      · have := h a ha
        rwa [Memory.read_cons, if_neg hka, Memory.read_cons, if_neg hka] at this

/-! ### At 16-bit addresses -/

theorem memRead_memWrite_same {m : Memory} (hm : Memory.wf m = true) (addr : Word) (v : Byte) :
    memRead (memWrite m addr v) addr = v :=
  Memory.read_write_same hm addr.toNat v

theorem memRead_memWrite_other {addr other : Word} (h : other ≠ addr) (m : Memory) (v : Byte) :
    memRead (memWrite m addr v) other = memRead m other :=
  Memory.read_write_other (fun e => h (BitVec.eq_of_toNat_eq e.symm)) m v

theorem memWrite_wf {m : Memory} (hm : Memory.wf m = true) (addr : Word) (v : Byte) :
    Memory.wf (memWrite m addr v) = true :=
  Memory.write_wfFrom (Nat.zero_le _) addr.isLt hm v

theorem storeBytes_wf (bytes : List Byte) (addr : Word) {s : State} (hs : Memory.wf s.mem = true) :
    Memory.wf (s.storeBytes addr bytes).mem = true := by
  induction bytes generalizing addr s with
  | nil => exact hs
  | cons v rest ih => exact ih (addr + 1) (memWrite_wf hs addr v)

end Sys2Proof.Machine
end

