-- ==== Sys2Proof/Laws/State.lean ====
section
/-! SUPPORT. One lemma per field per state update, each true by rfl: later proofs never unfold a record
update. -/

namespace Sys2Proof.Machine

/-! ### storeByte -/

@[simp] theorem State.storeByte_a (addr : Word) (w : Byte) (s : State) : (s.storeByte addr w).a = s.a := rfl
@[simp] theorem State.storeByte_x (addr : Word) (w : Byte) (s : State) : (s.storeByte addr w).x = s.x := rfl
@[simp] theorem State.storeByte_y (addr : Word) (w : Byte) (s : State) : (s.storeByte addr w).y = s.y := rfl
@[simp] theorem State.storeByte_pc (addr : Word) (w : Byte) (s : State) : (s.storeByte addr w).pc = s.pc := rfl
@[simp] theorem State.storeByte_sp (addr : Word) (w : Byte) (s : State) : (s.storeByte addr w).sp = s.sp := rfl
@[simp] theorem State.storeByte_z (addr : Word) (w : Byte) (s : State) : (s.storeByte addr w).z = s.z := rfl
@[simp] theorem State.storeByte_n (addr : Word) (w : Byte) (s : State) : (s.storeByte addr w).n = s.n := rfl
@[simp] theorem State.storeByte_c (addr : Word) (w : Byte) (s : State) : (s.storeByte addr w).c = s.c := rfl
@[simp] theorem State.storeByte_v (addr : Word) (w : Byte) (s : State) : (s.storeByte addr w).v = s.v := rfl
@[simp] theorem State.storeByte_i (addr : Word) (w : Byte) (s : State) : (s.storeByte addr w).i = s.i := rfl
@[simp] theorem State.storeByte_d (addr : Word) (w : Byte) (s : State) : (s.storeByte addr w).d = s.d := rfl
@[simp] theorem State.storeByte_b (addr : Word) (w : Byte) (s : State) : (s.storeByte addr w).b = s.b := rfl
@[simp] theorem State.storeByte_mem (addr : Word) (w : Byte) (s : State) : (s.storeByte addr w).mem = memWrite s.mem addr w := rfl

/-! ### commitLoad -/

@[simp] theorem commitLoad_a (w : Byte) (k : Nat) (s : State) : (commitLoad w k s).a = w := rfl
@[simp] theorem commitLoad_x (w : Byte) (k : Nat) (s : State) : (commitLoad w k s).x = s.x := rfl
@[simp] theorem commitLoad_y (w : Byte) (k : Nat) (s : State) : (commitLoad w k s).y = s.y := rfl
@[simp] theorem commitLoad_pc (w : Byte) (k : Nat) (s : State) : (commitLoad w k s).pc = nextPc s.pc k := rfl
@[simp] theorem commitLoad_sp (w : Byte) (k : Nat) (s : State) : (commitLoad w k s).sp = s.sp := rfl
@[simp] theorem commitLoad_z (w : Byte) (k : Nat) (s : State) : (commitLoad w k s).z = zeroFlag w := rfl
@[simp] theorem commitLoad_n (w : Byte) (k : Nat) (s : State) : (commitLoad w k s).n = negativeFlag w := rfl
@[simp] theorem commitLoad_c (w : Byte) (k : Nat) (s : State) : (commitLoad w k s).c = s.c := rfl
@[simp] theorem commitLoad_v (w : Byte) (k : Nat) (s : State) : (commitLoad w k s).v = s.v := rfl
@[simp] theorem commitLoad_i (w : Byte) (k : Nat) (s : State) : (commitLoad w k s).i = s.i := rfl
@[simp] theorem commitLoad_d (w : Byte) (k : Nat) (s : State) : (commitLoad w k s).d = s.d := rfl
@[simp] theorem commitLoad_b (w : Byte) (k : Nat) (s : State) : (commitLoad w k s).b = s.b := rfl
@[simp] theorem commitLoad_mem (w : Byte) (k : Nat) (s : State) : (commitLoad w k s).mem = s.mem := rfl

/-! ### writePc -/

@[simp] theorem writePc_a (w : Word) (s : State) : (writePc w s).a = s.a := rfl
@[simp] theorem writePc_x (w : Word) (s : State) : (writePc w s).x = s.x := rfl
@[simp] theorem writePc_y (w : Word) (s : State) : (writePc w s).y = s.y := rfl
@[simp] theorem writePc_pc (w : Word) (s : State) : (writePc w s).pc = w := rfl
@[simp] theorem writePc_sp (w : Word) (s : State) : (writePc w s).sp = s.sp := rfl
@[simp] theorem writePc_z (w : Word) (s : State) : (writePc w s).z = s.z := rfl
@[simp] theorem writePc_n (w : Word) (s : State) : (writePc w s).n = s.n := rfl
@[simp] theorem writePc_c (w : Word) (s : State) : (writePc w s).c = s.c := rfl
@[simp] theorem writePc_v (w : Word) (s : State) : (writePc w s).v = s.v := rfl
@[simp] theorem writePc_i (w : Word) (s : State) : (writePc w s).i = s.i := rfl
@[simp] theorem writePc_d (w : Word) (s : State) : (writePc w s).d = s.d := rfl
@[simp] theorem writePc_b (w : Word) (s : State) : (writePc w s).b = s.b := rfl
@[simp] theorem writePc_mem (w : Word) (s : State) : (writePc w s).mem = s.mem := rfl

/-! ### writeReg .a -/

@[simp] theorem writeReg_a_a (w : Byte) (s : State) : (writeReg .a w s).a = w := rfl
@[simp] theorem writeReg_a_x (w : Byte) (s : State) : (writeReg .a w s).x = s.x := rfl
@[simp] theorem writeReg_a_y (w : Byte) (s : State) : (writeReg .a w s).y = s.y := rfl
@[simp] theorem writeReg_a_pc (w : Byte) (s : State) : (writeReg .a w s).pc = s.pc := rfl
@[simp] theorem writeReg_a_sp (w : Byte) (s : State) : (writeReg .a w s).sp = s.sp := rfl
@[simp] theorem writeReg_a_z (w : Byte) (s : State) : (writeReg .a w s).z = s.z := rfl
@[simp] theorem writeReg_a_n (w : Byte) (s : State) : (writeReg .a w s).n = s.n := rfl
@[simp] theorem writeReg_a_c (w : Byte) (s : State) : (writeReg .a w s).c = s.c := rfl
@[simp] theorem writeReg_a_v (w : Byte) (s : State) : (writeReg .a w s).v = s.v := rfl
@[simp] theorem writeReg_a_i (w : Byte) (s : State) : (writeReg .a w s).i = s.i := rfl
@[simp] theorem writeReg_a_d (w : Byte) (s : State) : (writeReg .a w s).d = s.d := rfl
@[simp] theorem writeReg_a_b (w : Byte) (s : State) : (writeReg .a w s).b = s.b := rfl
@[simp] theorem writeReg_a_mem (w : Byte) (s : State) : (writeReg .a w s).mem = s.mem := rfl

/-! ### writeReg .x -/

@[simp] theorem writeReg_x_a (w : Byte) (s : State) : (writeReg .x w s).a = s.a := rfl
@[simp] theorem writeReg_x_x (w : Byte) (s : State) : (writeReg .x w s).x = w := rfl
@[simp] theorem writeReg_x_y (w : Byte) (s : State) : (writeReg .x w s).y = s.y := rfl
@[simp] theorem writeReg_x_pc (w : Byte) (s : State) : (writeReg .x w s).pc = s.pc := rfl
@[simp] theorem writeReg_x_sp (w : Byte) (s : State) : (writeReg .x w s).sp = s.sp := rfl
@[simp] theorem writeReg_x_z (w : Byte) (s : State) : (writeReg .x w s).z = s.z := rfl
@[simp] theorem writeReg_x_n (w : Byte) (s : State) : (writeReg .x w s).n = s.n := rfl
@[simp] theorem writeReg_x_c (w : Byte) (s : State) : (writeReg .x w s).c = s.c := rfl
@[simp] theorem writeReg_x_v (w : Byte) (s : State) : (writeReg .x w s).v = s.v := rfl
@[simp] theorem writeReg_x_i (w : Byte) (s : State) : (writeReg .x w s).i = s.i := rfl
@[simp] theorem writeReg_x_d (w : Byte) (s : State) : (writeReg .x w s).d = s.d := rfl
@[simp] theorem writeReg_x_b (w : Byte) (s : State) : (writeReg .x w s).b = s.b := rfl
@[simp] theorem writeReg_x_mem (w : Byte) (s : State) : (writeReg .x w s).mem = s.mem := rfl

/-! ### writeReg .y -/

@[simp] theorem writeReg_y_a (w : Byte) (s : State) : (writeReg .y w s).a = s.a := rfl
@[simp] theorem writeReg_y_x (w : Byte) (s : State) : (writeReg .y w s).x = s.x := rfl
@[simp] theorem writeReg_y_y (w : Byte) (s : State) : (writeReg .y w s).y = w := rfl
@[simp] theorem writeReg_y_pc (w : Byte) (s : State) : (writeReg .y w s).pc = s.pc := rfl
@[simp] theorem writeReg_y_sp (w : Byte) (s : State) : (writeReg .y w s).sp = s.sp := rfl
@[simp] theorem writeReg_y_z (w : Byte) (s : State) : (writeReg .y w s).z = s.z := rfl
@[simp] theorem writeReg_y_n (w : Byte) (s : State) : (writeReg .y w s).n = s.n := rfl
@[simp] theorem writeReg_y_c (w : Byte) (s : State) : (writeReg .y w s).c = s.c := rfl
@[simp] theorem writeReg_y_v (w : Byte) (s : State) : (writeReg .y w s).v = s.v := rfl
@[simp] theorem writeReg_y_i (w : Byte) (s : State) : (writeReg .y w s).i = s.i := rfl
@[simp] theorem writeReg_y_d (w : Byte) (s : State) : (writeReg .y w s).d = s.d := rfl
@[simp] theorem writeReg_y_b (w : Byte) (s : State) : (writeReg .y w s).b = s.b := rfl
@[simp] theorem writeReg_y_mem (w : Byte) (s : State) : (writeReg .y w s).mem = s.mem := rfl

/-! ### writeFlag .z -/

@[simp] theorem writeFlag_z_a (w : Bool) (s : State) : (writeFlag .z w s).a = s.a := rfl
@[simp] theorem writeFlag_z_x (w : Bool) (s : State) : (writeFlag .z w s).x = s.x := rfl
@[simp] theorem writeFlag_z_y (w : Bool) (s : State) : (writeFlag .z w s).y = s.y := rfl
@[simp] theorem writeFlag_z_pc (w : Bool) (s : State) : (writeFlag .z w s).pc = s.pc := rfl
@[simp] theorem writeFlag_z_sp (w : Bool) (s : State) : (writeFlag .z w s).sp = s.sp := rfl
@[simp] theorem writeFlag_z_z (w : Bool) (s : State) : (writeFlag .z w s).z = w := rfl
@[simp] theorem writeFlag_z_n (w : Bool) (s : State) : (writeFlag .z w s).n = s.n := rfl
@[simp] theorem writeFlag_z_c (w : Bool) (s : State) : (writeFlag .z w s).c = s.c := rfl
@[simp] theorem writeFlag_z_v (w : Bool) (s : State) : (writeFlag .z w s).v = s.v := rfl
@[simp] theorem writeFlag_z_i (w : Bool) (s : State) : (writeFlag .z w s).i = s.i := rfl
@[simp] theorem writeFlag_z_d (w : Bool) (s : State) : (writeFlag .z w s).d = s.d := rfl
@[simp] theorem writeFlag_z_b (w : Bool) (s : State) : (writeFlag .z w s).b = s.b := rfl
@[simp] theorem writeFlag_z_mem (w : Bool) (s : State) : (writeFlag .z w s).mem = s.mem := rfl

/-! ### writeFlag .n -/

@[simp] theorem writeFlag_n_a (w : Bool) (s : State) : (writeFlag .n w s).a = s.a := rfl
@[simp] theorem writeFlag_n_x (w : Bool) (s : State) : (writeFlag .n w s).x = s.x := rfl
@[simp] theorem writeFlag_n_y (w : Bool) (s : State) : (writeFlag .n w s).y = s.y := rfl
@[simp] theorem writeFlag_n_pc (w : Bool) (s : State) : (writeFlag .n w s).pc = s.pc := rfl
@[simp] theorem writeFlag_n_sp (w : Bool) (s : State) : (writeFlag .n w s).sp = s.sp := rfl
@[simp] theorem writeFlag_n_z (w : Bool) (s : State) : (writeFlag .n w s).z = s.z := rfl
@[simp] theorem writeFlag_n_n (w : Bool) (s : State) : (writeFlag .n w s).n = w := rfl
@[simp] theorem writeFlag_n_c (w : Bool) (s : State) : (writeFlag .n w s).c = s.c := rfl
@[simp] theorem writeFlag_n_v (w : Bool) (s : State) : (writeFlag .n w s).v = s.v := rfl
@[simp] theorem writeFlag_n_i (w : Bool) (s : State) : (writeFlag .n w s).i = s.i := rfl
@[simp] theorem writeFlag_n_d (w : Bool) (s : State) : (writeFlag .n w s).d = s.d := rfl
@[simp] theorem writeFlag_n_b (w : Bool) (s : State) : (writeFlag .n w s).b = s.b := rfl
@[simp] theorem writeFlag_n_mem (w : Bool) (s : State) : (writeFlag .n w s).mem = s.mem := rfl

/-! ### writeFlag .c -/

@[simp] theorem writeFlag_c_a (w : Bool) (s : State) : (writeFlag .c w s).a = s.a := rfl
@[simp] theorem writeFlag_c_x (w : Bool) (s : State) : (writeFlag .c w s).x = s.x := rfl
@[simp] theorem writeFlag_c_y (w : Bool) (s : State) : (writeFlag .c w s).y = s.y := rfl
@[simp] theorem writeFlag_c_pc (w : Bool) (s : State) : (writeFlag .c w s).pc = s.pc := rfl
@[simp] theorem writeFlag_c_sp (w : Bool) (s : State) : (writeFlag .c w s).sp = s.sp := rfl
@[simp] theorem writeFlag_c_z (w : Bool) (s : State) : (writeFlag .c w s).z = s.z := rfl
@[simp] theorem writeFlag_c_n (w : Bool) (s : State) : (writeFlag .c w s).n = s.n := rfl
@[simp] theorem writeFlag_c_c (w : Bool) (s : State) : (writeFlag .c w s).c = w := rfl
@[simp] theorem writeFlag_c_v (w : Bool) (s : State) : (writeFlag .c w s).v = s.v := rfl
@[simp] theorem writeFlag_c_i (w : Bool) (s : State) : (writeFlag .c w s).i = s.i := rfl
@[simp] theorem writeFlag_c_d (w : Bool) (s : State) : (writeFlag .c w s).d = s.d := rfl
@[simp] theorem writeFlag_c_b (w : Bool) (s : State) : (writeFlag .c w s).b = s.b := rfl
@[simp] theorem writeFlag_c_mem (w : Bool) (s : State) : (writeFlag .c w s).mem = s.mem := rfl

/-! ### writeFlag .v -/

@[simp] theorem writeFlag_v_a (w : Bool) (s : State) : (writeFlag .v w s).a = s.a := rfl
@[simp] theorem writeFlag_v_x (w : Bool) (s : State) : (writeFlag .v w s).x = s.x := rfl
@[simp] theorem writeFlag_v_y (w : Bool) (s : State) : (writeFlag .v w s).y = s.y := rfl
@[simp] theorem writeFlag_v_pc (w : Bool) (s : State) : (writeFlag .v w s).pc = s.pc := rfl
@[simp] theorem writeFlag_v_sp (w : Bool) (s : State) : (writeFlag .v w s).sp = s.sp := rfl
@[simp] theorem writeFlag_v_z (w : Bool) (s : State) : (writeFlag .v w s).z = s.z := rfl
@[simp] theorem writeFlag_v_n (w : Bool) (s : State) : (writeFlag .v w s).n = s.n := rfl
@[simp] theorem writeFlag_v_c (w : Bool) (s : State) : (writeFlag .v w s).c = s.c := rfl
@[simp] theorem writeFlag_v_v (w : Bool) (s : State) : (writeFlag .v w s).v = w := rfl
@[simp] theorem writeFlag_v_i (w : Bool) (s : State) : (writeFlag .v w s).i = s.i := rfl
@[simp] theorem writeFlag_v_d (w : Bool) (s : State) : (writeFlag .v w s).d = s.d := rfl
@[simp] theorem writeFlag_v_b (w : Bool) (s : State) : (writeFlag .v w s).b = s.b := rfl
@[simp] theorem writeFlag_v_mem (w : Bool) (s : State) : (writeFlag .v w s).mem = s.mem := rfl

/-! ### writeFlag .i -/

@[simp] theorem writeFlag_i_a (w : Bool) (s : State) : (writeFlag .i w s).a = s.a := rfl
@[simp] theorem writeFlag_i_x (w : Bool) (s : State) : (writeFlag .i w s).x = s.x := rfl
@[simp] theorem writeFlag_i_y (w : Bool) (s : State) : (writeFlag .i w s).y = s.y := rfl
@[simp] theorem writeFlag_i_pc (w : Bool) (s : State) : (writeFlag .i w s).pc = s.pc := rfl
@[simp] theorem writeFlag_i_sp (w : Bool) (s : State) : (writeFlag .i w s).sp = s.sp := rfl
@[simp] theorem writeFlag_i_z (w : Bool) (s : State) : (writeFlag .i w s).z = s.z := rfl
@[simp] theorem writeFlag_i_n (w : Bool) (s : State) : (writeFlag .i w s).n = s.n := rfl
@[simp] theorem writeFlag_i_c (w : Bool) (s : State) : (writeFlag .i w s).c = s.c := rfl
@[simp] theorem writeFlag_i_v (w : Bool) (s : State) : (writeFlag .i w s).v = s.v := rfl
@[simp] theorem writeFlag_i_i (w : Bool) (s : State) : (writeFlag .i w s).i = w := rfl
@[simp] theorem writeFlag_i_d (w : Bool) (s : State) : (writeFlag .i w s).d = s.d := rfl
@[simp] theorem writeFlag_i_b (w : Bool) (s : State) : (writeFlag .i w s).b = s.b := rfl
@[simp] theorem writeFlag_i_mem (w : Bool) (s : State) : (writeFlag .i w s).mem = s.mem := rfl

/-! ### writeFlag .d -/

@[simp] theorem writeFlag_d_a (w : Bool) (s : State) : (writeFlag .d w s).a = s.a := rfl
@[simp] theorem writeFlag_d_x (w : Bool) (s : State) : (writeFlag .d w s).x = s.x := rfl
@[simp] theorem writeFlag_d_y (w : Bool) (s : State) : (writeFlag .d w s).y = s.y := rfl
@[simp] theorem writeFlag_d_pc (w : Bool) (s : State) : (writeFlag .d w s).pc = s.pc := rfl
@[simp] theorem writeFlag_d_sp (w : Bool) (s : State) : (writeFlag .d w s).sp = s.sp := rfl
@[simp] theorem writeFlag_d_z (w : Bool) (s : State) : (writeFlag .d w s).z = s.z := rfl
@[simp] theorem writeFlag_d_n (w : Bool) (s : State) : (writeFlag .d w s).n = s.n := rfl
@[simp] theorem writeFlag_d_c (w : Bool) (s : State) : (writeFlag .d w s).c = s.c := rfl
@[simp] theorem writeFlag_d_v (w : Bool) (s : State) : (writeFlag .d w s).v = s.v := rfl
@[simp] theorem writeFlag_d_i (w : Bool) (s : State) : (writeFlag .d w s).i = s.i := rfl
@[simp] theorem writeFlag_d_d (w : Bool) (s : State) : (writeFlag .d w s).d = w := rfl
@[simp] theorem writeFlag_d_b (w : Bool) (s : State) : (writeFlag .d w s).b = s.b := rfl
@[simp] theorem writeFlag_d_mem (w : Bool) (s : State) : (writeFlag .d w s).mem = s.mem := rfl

/-! ### writeFlag .b -/

@[simp] theorem writeFlag_b_a (w : Bool) (s : State) : (writeFlag .b w s).a = s.a := rfl
@[simp] theorem writeFlag_b_x (w : Bool) (s : State) : (writeFlag .b w s).x = s.x := rfl
@[simp] theorem writeFlag_b_y (w : Bool) (s : State) : (writeFlag .b w s).y = s.y := rfl
@[simp] theorem writeFlag_b_pc (w : Bool) (s : State) : (writeFlag .b w s).pc = s.pc := rfl
@[simp] theorem writeFlag_b_sp (w : Bool) (s : State) : (writeFlag .b w s).sp = s.sp := rfl
@[simp] theorem writeFlag_b_z (w : Bool) (s : State) : (writeFlag .b w s).z = s.z := rfl
@[simp] theorem writeFlag_b_n (w : Bool) (s : State) : (writeFlag .b w s).n = s.n := rfl
@[simp] theorem writeFlag_b_c (w : Bool) (s : State) : (writeFlag .b w s).c = s.c := rfl
@[simp] theorem writeFlag_b_v (w : Bool) (s : State) : (writeFlag .b w s).v = s.v := rfl
@[simp] theorem writeFlag_b_i (w : Bool) (s : State) : (writeFlag .b w s).i = s.i := rfl
@[simp] theorem writeFlag_b_d (w : Bool) (s : State) : (writeFlag .b w s).d = s.d := rfl
@[simp] theorem writeFlag_b_b (w : Bool) (s : State) : (writeFlag .b w s).b = w := rfl
@[simp] theorem writeFlag_b_mem (w : Bool) (s : State) : (writeFlag .b w s).mem = s.mem := rfl

/-! ### construct -/

@[simp] theorem State.construct_a (ra : Word) (rs : Byte) : (State.construct ra rs).a = 0x00 := rfl
@[simp] theorem State.construct_x (ra : Word) (rs : Byte) : (State.construct ra rs).x = 0x00 := rfl
@[simp] theorem State.construct_y (ra : Word) (rs : Byte) : (State.construct ra rs).y = 0x00 := rfl
@[simp] theorem State.construct_pc (ra : Word) (rs : Byte) : (State.construct ra rs).pc = ra := rfl
@[simp] theorem State.construct_sp (ra : Word) (rs : Byte) : (State.construct ra rs).sp = rs := rfl
@[simp] theorem State.construct_z (ra : Word) (rs : Byte) : (State.construct ra rs).z = false := rfl
@[simp] theorem State.construct_n (ra : Word) (rs : Byte) : (State.construct ra rs).n = false := rfl
@[simp] theorem State.construct_c (ra : Word) (rs : Byte) : (State.construct ra rs).c = false := rfl
@[simp] theorem State.construct_v (ra : Word) (rs : Byte) : (State.construct ra rs).v = false := rfl
@[simp] theorem State.construct_i (ra : Word) (rs : Byte) : (State.construct ra rs).i = false := rfl
@[simp] theorem State.construct_d (ra : Word) (rs : Byte) : (State.construct ra rs).d = false := rfl
@[simp] theorem State.construct_b (ra : Word) (rs : Byte) : (State.construct ra rs).b = false := rfl
@[simp] theorem State.construct_mem (ra : Word) (rs : Byte) : (State.construct ra rs).mem = [] := rfl

end Sys2Proof.Machine
end

