-- ==== Sys2Proof/Laws/Step.lean ====
section
/-! SUPPORT. What an instruction and a step can do, said once: the operand source of an instruction, the
one form of every meaning, and the inversion of `step`. -/

namespace Sys2Proof.Machine

/-- The operand source of an instruction whose operands are assembled. -/
def sourceOf (s : State) : Instr → OperandSource
  | .ldaImm imm8 => .imm imm8
  | .ldaZp zp8 => .addr (eaZeroPage zp8)
  | .ldaZpX zp8 => .addr (eaZeroPageX zp8 s.x)
  | .ldaAbs abs16 => .addr (eaAbsolute abs16)
  | .ldaAbsX abs16 => .addr (indexWord abs16 s.x)
  | .ldaAbsY abs16 => .addr (indexWord abs16 s.y)
  | .ldaIndX zp8 => .addr (eaIndirectX s.mem zp8 s.x)
  | .ldaIndY zp8 => .addr (eaIndirectY s.mem zp8 s.y)

/-- Every meaning commits the load of its operand and answers a next state. -/
theorem exec_eq (i : Instr) (s : State) :
    exec i s = .next (commitLoad (operandValue s.mem (sourceOf s i)) i.mode.operandBytes s) := by
  cases i <;> rfl

/-- The source of an assembled instruction is the resolver's, from the bytes at the cursor. -/
theorem sourceOf_assemble (s : State) (m : Mode) :
    sourceOf s (assemble m (memRead s.mem (operandCursor s)) (memRead s.mem (operandCursor s + 1))) =
      (resolve m (operandCursor s) s.mem s.x s.y).1 := by
  cases m <;> rfl

@[simp] theorem resolve_count (m : Mode) (cur : Word) (mem : Memory) (x y : Byte) :
    (resolve m cur mem x y).2 = m.operandBytes := by
  cases m <;> rfl

/-- The step where the opcode has no row. -/
theorem step_of_unimplemented {s : State} (h : decodeOpcode (fetchOpcode s) = none) :
    step s = .fault .unimplementedOpcode := by
  simp [step, fetchInstr, h, raiseUnimplementedOpcode]

/-- The step where the opcode has a row: resolve, read, commit. -/
theorem step_of_implemented {s : State} {o : Operation} {m : Mode}
    (h : decodeOpcode (fetchOpcode s) = some (o, m)) :
    step s = .next (commitLoad (operandValue s.mem (resolve m (operandCursor s) s.mem s.x s.y).1)
      m.operandBytes s) := by
  cases o
  simp only [step, fetchInstr, h, exec_eq, sourceOf_assemble, assemble_mode]

/-- A step either fails at decode or commits a load. -/
theorem step_cases (s : State) :
    (decodeOpcode (fetchOpcode s) = none ∧ step s = .fault .unimplementedOpcode) ∨
    ∃ m, decodeOpcode (fetchOpcode s) = some (.lda, m) ∧
      step s = .next (commitLoad (operandValue s.mem (resolve m (operandCursor s) s.mem s.x s.y).1)
        m.operandBytes s) := by
  cases h : decodeOpcode (fetchOpcode s) with
  | none => exact .inl ⟨rfl, step_of_unimplemented h⟩
  | some r =>
    obtain ⟨⟨⟩, m⟩ := r
    exact .inr ⟨m, rfl, step_of_implemented h⟩

/-- What a next state of a step is. -/
theorem step_next {s t : State} (h : step s = .next t) :
    ∃ m, decodeOpcode (fetchOpcode s) = some (.lda, m) ∧
      t = commitLoad (operandValue s.mem (resolve m (operandCursor s) s.mem s.x s.y).1)
        m.operandBytes s := by
  rcases step_cases s with ⟨-, h'⟩ | ⟨m, hm, h'⟩
  · rw [h'] at h; cases h
  · rw [h'] at h; cases h; exact ⟨m, hm, rfl⟩

/-- When a step faults. -/
theorem step_fault {s : State} {e : Fault} (h : step s = .fault e) :
    e = .unimplementedOpcode ∧ decodeOpcode (fetchOpcode s) = none := by
  rcases step_cases s with ⟨hd, h'⟩ | ⟨m, hm, h'⟩
  · rw [h'] at h; cases h; exact ⟨rfl, hd⟩
  · rw [h'] at h; cases h

/-- No step is refused. -/
theorem step_ne_refused (s : State) (r : Refusal) : step s ≠ .refused r := by
  rcases step_cases s with ⟨-, h'⟩ | ⟨m, -, h'⟩ <;> rw [h'] <;> exact fun h => by cases h

end Sys2Proof.Machine
end

