-- ==== Sys2Proof/Laws/HostPort.lean ====
section
/-! SUPPORT. What the host's step transaction can do, and the invariant through each state update. -/

namespace Sys2Proof.Machine

open Sys2Proof.Safety

/-- `Cpu.step()` answers `Err` and the same state, or `Ok` and a committed load. -/
theorem stepCall_cases (s : State) :
    (decodeOpcode (fetchOpcode s) = none ∧ stepCall s = (.err .unimplementedOpcode, s)) ∨
    ∃ m, decodeOpcode (fetchOpcode s) = some (.lda, m) ∧
      stepCall s = (.ok, commitLoad
        (operandValue s.mem (resolve m (operandCursor s) s.mem s.x s.y).1) m.operandBytes s) := by
  rcases step_cases s with ⟨hd, h⟩ | ⟨m, hm, h⟩
  · exact .inl ⟨hd, by simp [stepCall, h]⟩
  · exact .inr ⟨m, hm, by simp [stepCall, h]⟩

/-- A step transaction leaves memory as it was. -/
theorem stepCall_mem (s : State) : (stepCall s).2.mem = s.mem := by
  rcases stepCall_cases s with ⟨-, h⟩ | ⟨m, -, h⟩
  · rw [h]
  · rw [h]; rfl

/-- An accessor's write to a byte register does not touch memory. -/
@[simp] theorem writeReg_mem (r : ByteReg) (w : Byte) (s : State) : (writeReg r w s).mem = s.mem := by
  cases r <;> rfl

/-- An accessor's write to a flag does not touch memory. -/
@[simp] theorem writeFlag_mem (f : Flag) (w : Bool) (s : State) : (writeFlag f w s).mem = s.mem := by
  cases f <;> rfl

/-- The memory after any transaction: the written byte's, or the same. -/
theorem hostCall_mem (c : HostCall) (s : State) :
    (hostCall c s).2.mem = s.mem ∨
      ∃ addr v, c = .memWrite addr v ∧
        (hostCall c s).2.mem = memWrite s.mem addr (BitVec.ofNat 8 v) := by
  cases c with
  | memWrite addr v => exact .inr ⟨addr, v, rfl, rfl⟩
  | step => exact .inl (stepCall_mem s)
  | writeReg r v => exact .inl (writeReg_mem r _ s)
  | writeFlag f w => exact .inl (writeFlag_mem f w s)
  | memRead _ => exact .inl rfl
  | readReg _ => exact .inl rfl
  | readPc => exact .inl rfl
  | writePc _ => exact .inl rfl
  | readFlag _ => exact .inl rfl
  | opcodeConstants => exact .inl rfl

/-- A transaction that is no write to an address leaves the byte there. -/
theorem hostCall_read_other {c : HostCall} {addr : Word} (h : ∀ v, c ≠ .memWrite addr v) (s : State) :
    memRead (hostCall c s).2.mem addr = memRead s.mem addr := by
  rcases hostCall_mem c s with hm | ⟨addr', v, rfl, hm⟩
  · rw [hm]
  · rw [hm]
    exact memRead_memWrite_other (fun e => h v (by rw [e])) _ _

/-- One more step of a run, on the host's machine. -/
theorem core_run_succ (M : Host.Core) (k : Nat) (s : M.State) :
    M.run (k + 1) s =
      match M.step s with
      | .next t => M.run k t
      | .fault r => .fault r
      | .refused r => .refused r := rfl

/-- A run whose first step succeeds goes on from there. -/
theorem runFrom_succ_of_next {s t : State} (h : step s = .next t) (done k : Nat) :
    runFrom done (k + 1) s = runFrom (done + 1) k t := by
  simp [runFrom, h]

/-- A run whose first step fails ends there. -/
theorem runFrom_succ_of_fault {s : State} {e : Fault} (h : step s = .fault e) (done k : Nat) :
    runFrom done (k + 1) s = .err done e s := by
  simp [runFrom, h]

/-- The construction state is canonical. -/
theorem construct_wf (ra : Word) (rs : Byte) : Memory.wf (State.construct ra rs).mem = true := rfl

/-- Placing a table word keeps the canonical form. -/
theorem placeTableWord_wf {s : State} (hs : StateInv s) (nbits w : Nat) : StateInv (placeTableWord s nbits w) :=
  storeBytes_wf _ _ hs

end Sys2Proof.Machine
end

