-- ==== Sys2Proof/Laws/PerInstr.lean ====
section
/-! SUPPORT. The per-instruction families of LAWS.json. -/

namespace Sys2Proof.Laws.EncodedLength

/-- An instruction's encoding begins with its mode's opcode byte, is `1 + n(mode)` bytes long and is a
well-formed instruction string (30_encoding.md R57, R69). -/
def Statement (i : Instr) : Prop :=
  (encode i).head? = some i.mode.opcode ∧ (encode i).length = i.length ∧
    isInstructionBytes (encode i) = true ∧ WellFormed i = true

theorem ldaImm (imm8 : Byte) : Statement (.ldaImm imm8) := ⟨rfl, rfl, rfl, rfl⟩
theorem ldaZp (zp8 : Byte) : Statement (.ldaZp zp8) := ⟨rfl, rfl, rfl, rfl⟩
theorem ldaZpX (zp8 : Byte) : Statement (.ldaZpX zp8) := ⟨rfl, rfl, rfl, rfl⟩
theorem ldaAbs (abs16 : Word) : Statement (.ldaAbs abs16) := ⟨rfl, rfl, rfl, rfl⟩
theorem ldaAbsX (abs16 : Word) : Statement (.ldaAbsX abs16) := ⟨rfl, rfl, rfl, rfl⟩
theorem ldaAbsY (abs16 : Word) : Statement (.ldaAbsY abs16) := ⟨rfl, rfl, rfl, rfl⟩
theorem ldaIndX (zp8 : Byte) : Statement (.ldaIndX zp8) := ⟨rfl, rfl, rfl, rfl⟩
theorem ldaIndY (zp8 : Byte) : Statement (.ldaIndY zp8) := ⟨rfl, rfl, rfl, rfl⟩

end Sys2Proof.Laws.EncodedLength
end

