-- ==== Sys2Proof/Tests/Slice0.lean ====
section
/-! SUPPORT. Tests on small states. Expected results come from spec/95_test_vectors.md (the vector's id
stands above each test) or are worked out by hand from the rule named; then the witnesses that the
statements' hypotheses can be met together. -/

namespace Sys2Proof.Tests

open Sys2Proof.Machine Sys2Proof.Claims Sys2Proof.Safety

/-! ### Helpers -/

/-- A reset state with PC, X and Y set and bytes placed. -/
def machineWith (pc : Word) (x y : Byte) (cells : List Host.Cell) : State :=
  { State.reset with
    pc := pc
    x := x
    y := y
    mem := cells.foldl (fun m e => Memory.write m e.1 e.2) [] }

/-- A, Z, N and PC after one step; none if it does not answer a next state. -/
def afterStep (s : State) : Option (Byte × Bool × Bool × Word) :=
  match step s with
  | .next t => some (t.a, t.z, t.n, t.pc)
  | .fault _ => none
  | .refused _ => none

/-! ### Decoding: every row's word, bit by bit from 30_encoding.md R61 -/

theorem test_decode_ldaImm : decode [0b10101001, 0x7F] = .ok (.ldaImm 0x7F, []) := by decide
theorem test_decode_ldaZp : decode [0b10100101, 0x10] = .ok (.ldaZp 0x10, []) := by decide
theorem test_decode_ldaZpX : decode [0b10110101, 0x1E] = .ok (.ldaZpX 0x1E, []) := by decide
theorem test_decode_ldaAbs : decode [0b10101101, 0x34, 0x12] = .ok (.ldaAbs 0x1234, []) := by decide
theorem test_decode_ldaAbsX : decode [0b10111101, 0x10, 0x23] = .ok (.ldaAbsX 0x2310, []) := by decide
theorem test_decode_ldaAbsY : decode [0b10111001, 0x10, 0x23] = .ok (.ldaAbsY 0x2310, []) := by decide
theorem test_decode_ldaIndX : decode [0b10100001, 0x1C] = .ok (.ldaIndX 0x1C, []) := by decide
theorem test_decode_ldaIndY : decode [0b10110001, 0x1C] = .ok (.ldaIndY 0x1C, []) := by decide

/-- DEC-2, DEC-3, DEC-4, DEC-5: none of these bytes has a row. -/
theorem test_unimplemented_opcodes :
    ([0x00, 0x02, 0xA2, 0xEA, 0xFF, 0xA8, 0xAA, 0xB8, 0xBC, 0xB6, 0xBE, 0xAC, 0xA6, 0xA4, 0xA0] :
      List Byte).all (fun op => (decodeOpcode op).isNone) = true := by decide

/-- The table word of `AD 34 12` has its opcode in bits 7..0. -/
theorem test_table_word : decodeTableWord 24 0x1234AD = some (.ldaAbs 0x1234) := by decide

/-- Bits above `nbits` count as zero. -/
theorem test_table_word_bits_above : decodeTableWord 8 0x7FA9 = some (.ldaImm 0x00) := by decide

/-! ### Ill-formed byte strings, one for each check of `isInstructionBytes` -/

theorem test_illFormed_empty : isInstructionBytes [] = false := by decide
theorem test_illFormed_opcode : isInstructionBytes [0xEA, 0x00] = false := by decide
theorem test_illFormed_short_two : isInstructionBytes [0xA9] = false := by decide
theorem test_illFormed_short_three : isInstructionBytes [0xAD, 0x34] = false := by decide
theorem test_illFormed_long : isInstructionBytes [0xA9, 0x00, 0x00] = false := by decide
theorem test_wellFormed_string : isInstructionBytes [0xA9, 0x00] = true := by decide

/-- The checks of the memory's canonical form: order, repeats, a listed zero, the address space's end. -/
theorem test_illFormed_memories :
    ([[(5, 1), (3, 1)], [(3, 1), (3, 2)], [(3, 0)], [(65536, 1)]] : List Memory).all
      (fun m => !Memory.wf m) = true := by decide

theorem test_wellFormed_memory : Memory.wf [(0, 1), (3, 2), (65535, 255)] = true := by decide

/-! ### One step of each instruction -/

/-- IMM-2: the operand byte wraps to 0x0000. -/
theorem test_ldaImm_wrap : afterStep (machineWith 0xFFFF 0 0 [(0xFFFF, 0xA9), (0, 0x80)]) =
    some (0x80, false, true, 0x0001) := by decide

/-- FLG-6 in part: C, V, I, D, B stay set, Z and N are overwritten. -/
theorem test_ldaImm_other_flags_stay :
    step { machineWith 0x0200 0 0 [(0x0200, 0xA9)] with
      n := true, c := true, v := true, i := true, d := true, b := true } =
    .next { machineWith 0x0202 0 0 [(0x0200, 0xA9)] with
      z := true, c := true, v := true, i := true, d := true, b := true } := by rfl

/-- ZP-3: high byte 0, not page 1. -/
theorem test_ldaZp_page0 : afterStep (machineWith 0x0200 0 0
    [(0x0200, 0xA5), (0x0201, 0xFF), (0x00FF, 0x08), (0x01FF, 0x09)]) =
    some (0x08, false, false, 0x0202) := by decide

/-- ZP-4: reads its own opcode. -/
theorem test_ldaZp_own_code : afterStep (machineWith 0x0010 0 0 [(0x0010, 0xA5), (0x0011, 0x10)]) =
    some (0xA5, false, true, 0x0012) := by decide

/-- ZPX-1: wraps in page 0. -/
theorem test_ldaZpX_wrap : afterStep (machineWith 0x0200 0xFF 0
    [(0x0200, 0xB5), (0x0201, 0x80), (0x007F, 0x11), (0x017F, 0x22)]) =
    some (0x11, false, false, 0x0202) := by decide

/-- L1-2. -/
theorem test_ldaZpX_source_example : afterStep (machineWith 0x0200 0x01 0
    [(0x0200, 0xB5), (0x0201, 0x1E), (0x001F, 0x5A)]) = some (0x5A, false, false, 0x0202) := by decide

/-- ABS-2: little-endian. -/
theorem test_ldaAbs_littleEndian : afterStep (machineWith 0x0200 0 0
    [(0x0200, 0xAD), (0x0201, 0x34), (0x0202, 0x12), (0x3412, 0x77), (0x1234, 0x66)]) =
    some (0x66, false, false, 0x0203) := by decide

/-- ABS-4: the second operand byte is at 0x0000. -/
theorem test_ldaAbs_cursor_wrap : afterStep (machineWith 0xFFFE 0 0
    [(0xFFFE, 0xAD), (0xFFFF, 0x00), (0x0000, 0x03), (0x0300, 0x05)]) =
    some (0x05, false, false, 0x0001) := by decide

/-- ABX-3: the sum wraps to 0x0000. -/
theorem test_ldaAbsX_wrap : afterStep (machineWith 0x0200 0xFF 0
    [(0x0200, 0xBD), (0x0201, 0x01), (0x0202, 0xFF), (0x0000, 0x0D)]) =
    some (0x0D, false, false, 0x0203) := by decide

/-- ABX-4: X, not Y. -/
theorem test_ldaAbsX_uses_x : afterStep (machineWith 0x0200 0x05 0x09
    [(0x0200, 0xBD), (0x0201, 0x00), (0x0202, 0x10), (0x1005, 0x81)]) =
    some (0x81, false, true, 0x0203) := by decide

/-- ABY-2: crosses a page. -/
theorem test_ldaAbsY_cross : afterStep (machineWith 0x0200 0 0x01
    [(0x0200, 0xB9), (0x0201, 0xFF), (0x0202, 0x20), (0x2100, 0xE0)]) =
    some (0xE0, false, true, 0x0203) := by decide

/-- ABY-4: Y, not X. -/
theorem test_ldaAbsY_uses_y : afterStep (machineWith 0x0200 0x07 0x00
    [(0x0200, 0xB9), (0x0201, 0x00), (0x0202, 0x40), (0x4000, 0x44)]) =
    some (0x44, false, false, 0x0203) := by decide

/-- INX-1: the pointer's high byte comes from 0x0000, not 0x0100. -/
theorem test_ldaIndX_pointer_wrap : afterStep (machineWith 0x0200 0 0
    [(0x0200, 0xA1), (0x0201, 0xFF), (0x00FF, 0x34), (0x0000, 0x12), (0x0100, 0x99), (0x1234, 0x55)]) =
    some (0x55, false, false, 0x0202) := by decide

/-- INX-5: X on the pointer, Y not used. -/
theorem test_ldaIndX_uses_x : afterStep (machineWith 0x0200 0x05 0x07
    [(0x0200, 0xA1), (0x0201, 0x20), (0x0025, 0x00), (0x0026, 0x50), (0x5000, 0x11)]) =
    some (0x11, false, false, 0x0202) := by decide

/-- INY-2: the final address may cross a page. -/
theorem test_ldaIndY_cross : afterStep (machineWith 0x0200 0 0x01
    [(0x0200, 0xB1), (0x0201, 0x10), (0x0010, 0xFF), (0x0011, 0x20), (0x2100, 0x90)]) =
    some (0x90, false, true, 0x0202) := by decide

/-- INY-4: the pointer is not indexed by X. -/
theorem test_ldaIndY_pointer_not_indexed : afterStep (machineWith 0x0200 0x04 0x00
    [(0x0200, 0xB1), (0x0201, 0x10), (0x0010, 0x00), (0x0011, 0x30), (0x0014, 0xAA), (0x3000, 0x02)]) =
    some (0x02, false, false, 0x0202) := by decide

/-- DEC-2: `Err`, the whole state unchanged. -/
theorem test_unimplemented_keeps_state :
    hostCall .step { machineWith 0x0200 0x34 0x56 [(0x0200, 0xA2), (0x0201, 0x10)] with
      a := 0x12, c := true } =
    (.err .unimplementedOpcode, { machineWith 0x0200 0x34 0x56 [(0x0200, 0xA2), (0x0201, 0x10)] with
      a := 0x12, c := true }) := by decide

/-! ### The host interface -/

/-- R40: 0x1FF stores 0xFF. -/
theorem test_memWrite_low_byte :
    (hostCall (.memRead 0x10) (hostCall (.memWrite 0x10 0x1FF) State.reset).2).1 = .byte 0xFF := by decide

/-- R33: a write of PC is taken mod 65536. -/
theorem test_writePc_mod : (hostCall (.writePc 0x10203) State.reset).2.pc = 0x0203 := by decide

/-- R33: each flag's accessor reads that flag and no other. -/
theorem test_readFlag_each_its_own :
    let s := { State.reset with n := true, v := true, d := true }
    [Flag.z, .n, .c, .v, .i, .d, .b].map (fun f => (hostCall (.readFlag f) s).1) =
      [.bit false, .bit true, .bit false, .bit true, .bit false, .bit true, .bit false] := by decide

/-- R100: a run from a fresh instance ends with the error at its first step. -/
theorem test_run_err : runSteps 2 State.reset = .err 0 .unimplementedOpcode State.reset := by decide

/-- A table word placed after reset runs as the first instruction. -/
theorem test_withFetchWord : afterStep (State.reset.withFetchWord 16 0x80A9) =
    some (0x80, false, true, 0x0002) := by decide

/-! ### Witnesses: the hypotheses of every statement can be met together -/

/-- A state whose next step loads 0x80 (`LDA #$80` at 0x0200). -/
def loadState : State := machineWith 0x0200 0 0 [(0x0200, 0xA9), (0x0201, 0x80)]

theorem witness_DecoderTable_other :
    (0xA8 : Byte) ∉ ([0xA9, 0xA5, 0xB5, 0xAD, 0xBD, 0xB9, 0xA1, 0xB1] : List Byte) := by decide

theorem witness_EncodeOfDecode :
    decode [0xBD, 0xFF, 0xFF, 0x00] = .ok (.ldaAbsX 0xFFFF, [0x00]) := by decide

theorem witness_InstructionLength : decode (0xB1 :: [0xFF, 0x01]) = .ok (.ldaIndY 0xFF, [0x01]) ∧
    decodeOpcode 0xEA = none ∧ decodeOpcode (fetchOpcode State.reset) = none := by decide

theorem witness_StepRuns : decode (bytesAt
    (machineWith 0xFFFE 0 0 [(0xFFFE, 0xAD), (0xFFFF, 0x00), (0, 0x03)]).mem 0xFFFE 3) =
    .ok (.ldaAbs 0x0300, []) := by decide

/-- The other memory differs at 0x0300, which the step does not read. -/
theorem witness_StepDependsOnlyOnReads :
    (∀ a ∈ stepReads loadState, memRead (memWrite loadState.mem 0x0300 7) a = memRead loadState.mem a) ∧
    memWrite loadState.mem 0x0300 7 ≠ loadState.mem := by
  refine ⟨fun a ha => ?_, by decide⟩
  rw [show stepReads loadState = [0x0200, 0x0201] from rfl] at ha
  rcases List.mem_cons.mp ha with rfl | ha
  · rfl
  · rw [List.mem_singleton.mp ha]; rfl

/-- For the statements about a next state of a step: SuccessfulStepAdvancesPc,
StepWritesOnlyAccumulatorZNAndPc, the flag statements, StepKeepsCanonicalMemory. -/
theorem witness_step_next : StateInv loadState ∧ ∃ t, step loadState = .next t := ⟨by decide, _, rfl⟩

theorem witness_LoadFrame : ∃ t, exec (.ldaIndY 0xFF) loadState = .next t := ⟨_, rfl⟩

/-- For the statements about a fault of a step. -/
theorem witness_step_fault : step State.reset = .fault .unimplementedOpcode ∧
    decodeOpcode (fetchOpcode State.reset) = none := ⟨rfl, by decide⟩

theorem witness_NoFailurePath_mode :
    decodeOpcode (fetchOpcode loadState) = some (.lda, .immediate) := by decide

theorem witness_StepSucceeds : stepSucceeds loadState = true ∧ 0 ≤ 1 ∧ runSucceeds 1 loadState = true := by
  decide

theorem witness_LdaImmediate : byteAt loadState loadState.pc.toNat = 0xA9 := by decide
theorem witness_LdaZeroPage : byteAt (machineWith 0xFFFF 0 0 [(0xFFFF, 0xA5)]) 0xFFFF = 0xA5 := by decide
theorem witness_LdaZeroPageX : byteAt (machineWith 0 0xFF 0 [(0, 0xB5)]) 0 = 0xB5 := by decide
theorem witness_LdaAbsolute : byteAt (machineWith 0xFFFD 0 0 [(0xFFFD, 0xAD)]) 0xFFFD = 0xAD := by decide
theorem witness_LdaAbsoluteX : byteAt (machineWith 0x200 1 0 [(0x200, 0xBD)]) 0x200 = 0xBD := by decide
theorem witness_LdaAbsoluteY : byteAt (machineWith 0x200 0 1 [(0x200, 0xB9)]) 0x200 = 0xB9 := by decide
theorem witness_LdaIndirectX : byteAt (machineWith 0x200 1 0 [(0x200, 0xA1)]) 0x200 = 0xA1 := by decide
theorem witness_LdaIndirectY : byteAt (machineWith 0x200 0 1 [(0x200, 0xB1)]) 0x200 = 0xB1 := by decide

theorem witness_CarryChanges : (hostCall (.writeFlag .c true) State.reset).2.c ≠ State.reset.c ∧
    (hostCall (.writeFlag .v true) State.reset).2.v ≠ State.reset.v := by decide

/-- For MemoryWriteStoresOneByte: the state, another address, and transactions that are no write to
0xFFFF, a write next to it and a step among them. -/
theorem witness_MemoryWrite : StateInv loadState ∧ (0xFFFE : Word) ≠ 0xFFFF ∧
    (∀ v', HostCall.memWrite 0xFFFE 7 ≠ .memWrite 0xFFFF v') ∧
    (∀ v', HostCall.step ≠ .memWrite 0xFFFF v') :=
  ⟨by decide, by decide, fun _ h => by simp at h, fun _ h => by cases h⟩

theorem witness_OnlyHostWrites :
    memRead (hostCall (.memWrite 0xFFFF 7) State.reset).2.mem 0xFFFF ≠ memRead State.reset.mem 0xFFFF := by
  decide

/-- Two ways to the same bytes. -/
theorem witness_CanonicalMemories :
    let m := memWrite (memWrite [] 5 1) 3 2
    let m' := memWrite (memWrite (memWrite [] 3 2) 4 9) 5 1
    Memory.wf m = true ∧ Memory.wf (memWrite m' 4 0) = true ∧
      ∀ a : Word, memRead m a = memRead (memWrite m' 4 0) a :=
  ⟨by decide, by decide, fun a => by
    rw [show memWrite (memWrite (memWrite (memWrite [] 3 2) 4 9) 5 1) 4 0 = memWrite (memWrite [] 5 1) 3 2
      from by decide]⟩

theorem witness_ReadsReturnTheLastWrite : StateInv loadState ∧
    lastWrite 5 [.memWrite 5 1, .step, .memWrite 5 2, .memWrite 6 3] = some 2 := by decide

theorem witness_EveryTransaction : ∀ s ∈ [loadState, State.reset], StateInv s := by decide

theorem witness_HostWritesVisible : StateInv State.reset := by decide

theorem witness_ErrorRepeats : step State.reset = .fault .unimplementedOpcode ∧
    (hostCalls [.writeReg .x 5, .memWrite 7 1, .step] State.reset).pc = State.reset.pc ∧
    memRead (hostCalls [.writeReg .x 5, .memWrite 7 1, .step] State.reset).mem State.reset.pc =
      memRead State.reset.mem State.reset.pc := ⟨rfl, by decide, by decide⟩

theorem witness_RunEnds : (∃ t, runSteps 1 loadState = .completed t) ∧
    (∃ t, Host.Core.run core 1 loadState = .next t) ∧
    ∃ t, runSteps 2 loadState = .err 1 .unimplementedOpcode t := ⟨⟨_, rfl⟩, ⟨_, rfl⟩, ⟨_, rfl⟩⟩

theorem witness_Isolated : (0 : Nat) ≠ 1 ∧ [loadState, State.reset][1]? = some State.reset ∧
    1 < [loadState, State.reset].length := by decide

end Sys2Proof.Tests
end

section
/-! The state right after construction (10_state.md R34, 20_memory.md R49). -/

namespace Sys2Proof.Machine

/-- Memory is zero-initialised (20_memory.md R49): the empty list is all zeros. -/
@[simp] theorem memRead_nil (addr : Word) : memRead [] addr = 0x00 := Memory.read_nil addr.toNat

theorem memRead_construct (ra : Word) (rs : Byte) (addr : Word) :
    memRead (State.construct ra rs).mem addr = 0x00 := by
  rw [State.construct_mem, memRead_nil]

/-- Settles O44: the registers and flags field by field, memory by `memRead_construct`. -/
theorem constructionSetsTheResetValues : Obligations.ConstructionSetsTheResetValues := fun ra rs =>
  ⟨State.construct_a ra rs, State.construct_x ra rs, State.construct_y ra rs,
    State.construct_pc ra rs, State.construct_sp ra rs,
    State.construct_z ra rs, State.construct_n ra rs, State.construct_c ra rs,
    State.construct_v ra rs, State.construct_i ra rs, State.construct_d ra rs,
    State.construct_b ra rs, memRead_construct ra rs⟩

end Sys2Proof.Machine
end

section
/-! Reads of memory after host transactions (20_memory.md sections 2 and 7). -/

namespace Sys2Proof.Machine

open Sys2Proof.Safety Sys2Proof.Claims

/-- A byte named by the number of its address. -/
@[simp] theorem byteAt_toNat (s : State) (addr : Word) : byteAt s addr.toNat = memRead s.mem addr := by
  rw [byteAt, ← word_eq_ofNat rfl]

/-- Settles O36: the read transaction answers with the byte and gives back the same state. -/
theorem memoryReadIsPure : Obligations.MemoryReadIsPure := fun addr s =>
  have hread : hostCall (.memRead addr) s = (.byte (byteAt s addr.toNat), s) := by
    rw [byteAt_toNat]; rfl
  ⟨hread, by rw [hread]; exact hread⟩

/-- The port keeps the low byte of a host value (20_memory.md R40). -/
theorem ofNat_byte_mod (v : Nat) : BitVec.ofNat 8 (v % 256) = BitVec.ofNat 8 v :=
  BitVec.eq_of_toNat_eq (by simp)

/-- A transaction keeps the canonical form of memory. -/
theorem hostCall_stateInv (c : HostCall) {s : State} (hs : StateInv s) : StateInv (hostCall c s).2 := by
  rcases hostCall_mem c s with hm | ⟨addr, v, -, hm⟩
  · rw [StateInv, hm]; exact hs
  · rw [StateInv, hm]; exact memWrite_wf hs addr _

/-- The byte a write transaction leaves at its address. -/
theorem hostCall_memWrite_read_same {s : State} (hs : StateInv s) (addr : Word) (v : Nat) :
    memRead (hostCall (.memWrite addr v) s).2.mem addr = BitVec.ofNat 8 v :=
  memRead_memWrite_same hs addr _

/-- Settles O37: the written byte by `hostCall_memWrite_read_same`, other addresses and later
transactions by `hostCall_read_other`. -/
theorem memoryWriteStoresOneByte : Obligations.MemoryWriteStoresOneByte := fun addr v s hs => by
  have hsame := hostCall_memWrite_read_same hs addr v
  have hbyte : (BitVec.ofNat 8 v).toNat = v % 256 := BitVec.toNat_ofNat v 8
  refine ⟨rfl, ?_, fun other hne => ?_, rfl, fun c hc => ?_⟩
  · rw [hsame, hbyte]
  · refine hostCall_read_other (fun v' h => hne ?_) s
    cases h; rfl
  · rw [hostCall_read_other hc, hsame, hbyte]

/-- Only a write to an address counts as one. -/
theorem ne_memWrite_of_writeTo_eq_none {a : Word} {c : HostCall} (h : writeTo a c = none) (v : Nat) :
    c ≠ .memWrite a v := by
  rintro rfl
  simp [writeTo] at h

/-- What counts as a write to an address is one. -/
theorem eq_memWrite_of_writeTo_eq_some {a : Word} {c : HostCall} {b : Byte} (h : writeTo a c = some b) :
    ∃ v, c = .memWrite a v ∧ b = BitVec.ofNat 8 v := by
  cases c with
  | memWrite addr v =>
    simp only [writeTo, Option.ite_none_right_eq_some, Option.some.injEq] at h
    obtain ⟨rfl, rfl⟩ := h
    exact ⟨v, rfl, ofNat_byte_mod v⟩
  | _ => cases h

/-- A read after one transaction: the byte it writes there, or the one that was there. -/
theorem hostCall_read {s : State} (hs : StateInv s) (c : HostCall) (a : Word) :
    memRead (hostCall c s).2.mem a = (writeTo a c).getD (memRead s.mem a) := by
  cases h : writeTo a c with
  | none => exact hostCall_read_other (ne_memWrite_of_writeTo_eq_none h) s
  | some b =>
    obtain ⟨v, rfl, rfl⟩ := eq_memWrite_of_writeTo_eq_some h
    exact hostCall_memWrite_read_same hs a v

/-- A read after a sequence of transactions: the last write there, or the byte that was there. -/
theorem hostCalls_read {s : State} (hs : StateInv s) (calls : List HostCall) (a : Word) :
    memRead (hostCalls calls s).mem a = (lastWrite a calls).getD (memRead s.mem a) := by
  induction calls generalizing s with
  | nil => rfl
  | cons c rest ih =>
    rw [hostCalls, ih (hostCall_stateInv c hs), hostCall_read hs, lastWrite, Option.getD_or]

/-- Settles O40: `hostCalls_read`, from the construction state, where every byte is 0x00, and from any
canonical state. -/
theorem readsReturnTheLastWrite : Obligations.ReadsReturnTheLastWrite :=
  ⟨fun ra rs calls a => by rw [hostCalls_read (construct_wf ra rs), memRead_construct],
    fun _ calls a hs => hostCalls_read hs calls a⟩

end Sys2Proof.Machine
end

section
/-! Several instances (20_memory.md R55, 60_exceptions.md R128): what an action does to the list. -/

namespace Sys2Proof.Machine

theorem platformAct_construct (ra : Word) (rs : Byte) (cores : List State) :
    platformAct (.construct ra rs) cores = (some .done, cores ++ [State.construct ra rs]) := rfl

/-- A call on a core that does not exist does nothing and has no reply (log entry 16). -/
theorem platformAct_call_of_none {k : Nat} {cores : List State} (h : cores[k]? = none) (c : HostCall) :
    platformAct (.call k c) cores = (none, cores) := by
  simp only [platformAct, h]

/-- A call replaces the state of its core in the list. -/
theorem platformAct_call_of_some {k : Nat} {cores : List State} {s : State} (h : cores[k]? = some s)
    (c : HostCall) :
    platformAct (.call k c) cores = (some (hostCall c s).1, cores.set k (hostCall c s).2) := by
  simp only [platformAct, h]

/-- A call leaves every other core as it was. -/
theorem platformAct_call_other {j k : Nat} (hjk : j ≠ k) (c : HostCall) (cores : List State) :
    (platformAct (.call k c) cores).2[j]? = cores[j]? := by
  cases hk : cores[k]? with
  | none => rw [platformAct_call_of_none hk]
  | some s => rw [platformAct_call_of_some hk, List.getElem?_set_ne hjk.symm]

/-- A call answers, and moves its core, as if that core were alone. -/
theorem platformAct_call_self {k : Nat} {cores : List State} {s : State} (hk : cores[k]? = some s)
    (c : HostCall) :
    (platformAct (.call k c) cores).1 = some (hostCall c s).1 ∧
      (platformAct (.call k c) cores).2[k]? = some (hostCall c s).2 ∧
      (platformAct (.call k c) cores).2.length = cores.length := by
  obtain ⟨hlt, -⟩ := List.getElem?_eq_some_iff.mp hk
  rw [platformAct_call_of_some hk]
  exact ⟨rfl, List.getElem?_set_self hlt, List.length_set⟩

/-- Settles O52: a call sets one place of the list, a construction appends to it. -/
theorem instancesAreIsolated : Obligations.InstancesAreIsolated :=
  ⟨fun _ _ c cores hjk => platformAct_call_other hjk c cores,
    fun _ c _ _ hk => platformAct_call_self hk c,
    fun ra rs cores => by
      rw [platformAct_construct]
      exact ⟨fun _ hj => List.getElem?_append_left hj, List.getElem?_concat_length⟩⟩

end Sys2Proof.Machine
end

section
/-! The length of an instruction (30_encoding.md R59, R69): what the decoder consumes, case by case. -/

namespace Sys2Proof

theorem decode_of_unimplemented {op : Byte} (h : decodeOpcode op = none) (tail : List Byte) :
    decode (op :: tail) = .error (.unimplementedOpcode op) := by
  simp only [decode, h]

theorem decode_of_implemented {op : Byte} {o : Operation} {m : Mode} (h : decodeOpcode op = some (o, m))
    (tail : List Byte) : decode (op :: tail) = decodeOperands m tail := by
  cases o
  simp only [decode, h]

/-- What a successful operand decoding took from the list. -/
theorem decodeOperands_ok {m : Mode} {bytes rest : List Byte} {i : Instr}
    (h : decodeOperands m bytes = .ok (i, rest)) :
    (m.operandBytes = 1 ∧ ∃ b1, bytes = b1 :: rest ∧ i = assemble m b1 0) ∨
    (m.operandBytes = 2 ∧ ∃ b1 b2, bytes = b1 :: b2 :: rest ∧ i = assemble m b1 b2) := by
  unfold decodeOperands at h
  split at h
  · next b1 _ hn => cases h; exact .inl ⟨hn, b1, rfl, rfl⟩
  · next b1 b2 _ hn => cases h; exact .inr ⟨hn, b1, b2, rfl, rfl⟩
  · cases h

/-- Operand decoding gives an instruction of the mode asked for and takes that mode's operand bytes. -/
theorem decodeOperands_mode_length {m : Mode} {bytes rest : List Byte} {i : Instr}
    (h : decodeOperands m bytes = .ok (i, rest)) :
    i.mode = m ∧ bytes.length = m.operandBytes + rest.length := by
  rcases decodeOperands_ok h with ⟨hn, b1, rfl, rfl⟩ | ⟨hn, b1, b2, rfl, rfl⟩
  · exact ⟨assemble_mode m b1 0, by rw [hn, List.length_cons, Nat.add_comm]⟩
  · exact ⟨assemble_mode m b1 b2, by rw [hn, List.length_cons, List.length_cons]; omega⟩

/-- What a successful decoding is: the opcode has a row, and the operands decode in that row's mode. -/
theorem decode_ok {op : Byte} {tail rest : List Byte} {i : Instr}
    (h : decode (op :: tail) = .ok (i, rest)) :
    ∃ m, decodeOpcode op = some (.lda, m) ∧ decodeOperands m tail = .ok (i, rest) := by
  cases hop : decodeOpcode op with
  | none => rw [decode_of_unimplemented hop] at h; cases h
  | some r =>
    obtain ⟨⟨⟩, m⟩ := r
    exact ⟨m, rfl, (decode_of_implemented hop tail).symm.trans h⟩

/-- A decoded instruction has its opcode's mode and took `1 + n(mode)` bytes (R69). -/
theorem decode_mode_length {op : Byte} {tail rest : List Byte} {i : Instr}
    (h : decode (op :: tail) = .ok (i, rest)) :
    decodeOpcode op = some (.lda, i.mode) ∧
      (op :: tail).length = 1 + i.mode.operandBytes + rest.length := by
  obtain ⟨m, hop, hoperands⟩ := decode_ok h
  obtain ⟨rfl, hlen⟩ := decodeOperands_mode_length hoperands
  exact ⟨hop, by rw [List.length_cons, hlen]; omega⟩

namespace Machine

/-- A failing step reads the opcode byte only (41_fetch_decode_execute.md R89). -/
theorem stepReads_of_unimplemented {s : State} (h : decodeOpcode (fetchOpcode s) = none) :
    stepReads s = [s.pc] := by
  simp only [stepReads, h]

/-- `Cpu.step()` on an unimplemented opcode answers the error and leaves the state (60_exceptions.md
R117). -/
theorem hostCall_step_of_unimplemented {s : State} (h : decodeOpcode (fetchOpcode s) = none) :
    hostCall .step s = (.err .unimplementedOpcode, s) := by
  simp only [hostCall, stepCall, step_of_unimplemented h]

end Machine

open Machine

/-- Settles O5: the counts are the table's, a decoded instruction's length is `decode_mode_length`, and
an unimplemented opcode stops the decoder and the step before any operand byte. -/
theorem instructionLengthIsOnePlusOperandBytes : Obligations.InstructionLengthIsOnePlusOperandBytes := by
  refine ⟨⟨rfl, rfl, rfl, rfl, rfl, rfl, rfl, rfl⟩, fun op tail rest i h => ?_,
    fun op tail h => decode_of_unimplemented h tail, fun s h => ?_⟩
  · obtain ⟨hop, hlen⟩ := decode_mode_length h
    exact ⟨hop, hlen, operandBytes_eq i.mode⟩
  · exact ⟨stepReads_of_unimplemented h, by rw [hostCall_step_of_unimplemented h]⟩

end Sys2Proof
end

section
/-! The indexed and indirect modes of the resolver (40_addressing_modes.md R76, R80, R81, R83): the page-0
pointer as numbers, then what each mode resolves to and reads. -/

namespace Sys2Proof.Machine

open Sys2Proof.Claims

/-! ### The page-0 pointer -/

/-- A byte of page 0, named by the number of its address. -/
theorem byteAt_zext16 (s : State) (p : Byte) : byteAt s p.toNat = memRead s.mem (zext16 p) := by
  rw [byteAt, zext16_eq_ofNat]

/-- `ReadZP16` as a number: the second byte wraps in page 0 (20_memory.md R44). -/
theorem readZP16_toNat_eq_pointerAt (s : State) (p : Byte) :
    (readZP16 s.mem p).toNat = pointerAt s p.toNat := by
  rw [readZP16_toNat, pointerAt, Nat.mod_eq_of_lt p.isLt, ← byte_succ_toNat, byteAt_zext16, byteAt_zext16]

theorem pointerAddrs_eq_ofNat (p : Byte) :
    pointerAddrs p = [BitVec.ofNat 16 p.toNat, BitVec.ofNat 16 ((p.toNat + 1) % 256)] := by
  rw [pointerAddrs, zext16_eq_ofNat, zext16_eq_ofNat, byte_succ_toNat]

/-- The pointer's addresses: the pointer itself, then the next address in page 0 (R83). -/
theorem pointerAddrs_in_page_zero (p : Byte) :
    ∃ lo hi : Word, pointerAddrs p = [lo, hi] ∧ lo.toNat = p.toNat ∧
      hi.toNat = (lo.toNat + 1) % 256 ∧ hi.toNat < 256 := by
  have hlo := zext16_toNat p
  have hhi : (zext16 (p + 1)).toNat = (p.toNat + 1) % 256 := by rw [zext16_toNat, byte_succ_toNat]
  exact ⟨_, _, rfl, hlo, by rw [hhi, hlo], by rw [hhi]; exact Nat.mod_lt _ (by decide)⟩

/-! ### Effective addresses -/

/-- With index 0, Zero Page,X is Zero Page (R76). -/
theorem eaZeroPageX_zero (zp : Byte) : eaZeroPageX zp 0 = eaZeroPage zp :=
  congrArg zext16 (BitVec.add_zero zp)

theorem eaIndirectX_toNat (s : State) (zp x : Byte) :
    (eaIndirectX s.mem zp x).toNat = pointerAt s ((zp.toNat + x.toNat) % 256) := by
  rw [eaIndirectX, readZP16_toNat_eq_pointerAt, zeroPageIndex_toNat]

theorem eaIndirectY_toNat (s : State) (zp y : Byte) :
    (eaIndirectY s.mem zp y).toNat = (pointerAt s zp.toNat + y.toNat) % 65536 := by
  rw [eaIndirectY, indexWord_toNat, readZP16_toNat_eq_pointerAt]

/-! ### The resolver, mode by mode -/

theorem resolve_zeroPage (cur : Word) (m : Memory) (x y : Byte) :
    resolve .zeroPage cur m x y = (.addr (eaZeroPage (memRead m cur)), 1) := rfl

theorem resolve_zeroPageX (cur : Word) (m : Memory) (x y : Byte) :
    resolve .zeroPageX cur m x y = (.addr (eaZeroPageX (memRead m cur) x), 1) := rfl

theorem resolve_indirectX (cur : Word) (m : Memory) (x y : Byte) :
    resolve .indirectX cur m x y = (.addr (eaIndirectX m (memRead m cur) x), 1) := rfl

theorem resolve_indirectY (cur : Word) (m : Memory) (x y : Byte) :
    resolve .indirectY cur m x y = (.addr (eaIndirectY m (memRead m cur) y), 1) := rfl

theorem resolverReads_zeroPageX (cur : Word) (m : Memory) (x : Byte) :
    resolverReads .zeroPageX cur m x = [cur] := by
  rw [resolverReads, operandAddrs_one rfl, List.append_nil]

theorem resolverReads_indirectX (cur : Word) (m : Memory) (x : Byte) :
    resolverReads .indirectX cur m x = cur :: pointerAddrs (zeroPageIndex (memRead m cur) x) := by
  rw [resolverReads, operandAddrs_one rfl, List.singleton_append]

theorem resolverReads_indirectY (cur : Word) (m : Memory) (x : Byte) :
    resolverReads .indirectY cur m x = cur :: pointerAddrs (memRead m cur) := by
  rw [resolverReads, operandAddrs_one rfl, List.singleton_append]

/-! ### The three statements -/

/-- Settles O8: the sum is `eaZeroPageX_toNat`, and adding 0 changes nothing. -/
theorem resolverZeroPageX : Obligations.ResolverZeroPageX := fun cur m x y =>
  ⟨by rw [resolve_zeroPageX, word_eq_ofNat (eaZeroPageX_toNat _ x)],
    resolverReads_zeroPageX cur m x,
    by rw [resolve_zeroPageX, resolve_zeroPage, eaZeroPageX_zero]⟩

/-- Settles O9: the addresses by `eaIndirectX_toNat` and `eaIndirectY_toNat`, the pointer bytes by
`pointerAddrs_eq_ofNat`. -/
theorem resolverIndirectModes : Obligations.ResolverIndirectModes := by
  intro cur s b1 p
  have hb1 : b1 = (memRead s.mem cur).toNat := congrArg BitVec.toNat (byteAt_toNat s cur)
  have hp : p = (zeroPageIndex (memRead s.mem cur) s.x).toNat := by
    rw [zeroPageIndex_toNat, ← hb1]
  refine ⟨?_, ?_, ?_, ?_⟩
  · rw [resolve_indirectX, word_eq_ofNat (eaIndirectX_toNat s _ s.x), ← hb1]
  · rw [resolverReads_indirectX, pointerAddrs_eq_ofNat, ← hp]
  · rw [resolve_indirectY, word_eq_ofNat (eaIndirectY_toNat s _ s.y), ← hb1]
  · rw [resolverReads_indirectY, pointerAddrs_eq_ofNat, ← hb1]

/-- Settles O10: the page-0 sums by `eaZeroPageX_toNat` and `pointerAddrs_in_page_zero`, the 16-bit sums
by `indexWord_toNat`. With 0x01 at address 0 and 0xFF at 1, each of the three has the base 0x00FF, and
index 1 carries into page 1. -/
theorem pageConfinementOfTheSevenSums : Obligations.PageConfinementOfTheSevenSums := by
  refine ⟨fun zp x => ?_, fun cur m x => ?_, fun cur m x => ?_, fun cur m x y => ?_, ?_, ?_, ?_⟩
  · have hsum := eaZeroPageX_toNat zp x
    exact ⟨hsum, by rw [hsum]; exact Nat.mod_lt _ (by decide)⟩
  · obtain ⟨lo, hi, hreads, hlo, hhi, hpage⟩ :=
      pointerAddrs_in_page_zero (zeroPageIndex (memRead m cur) x)
    exact ⟨lo, hi, by rw [resolverReads_indirectX, hreads], by rw [hlo, zeroPageIndex_toNat],
      by rw [hlo]; exact BitVec.isLt _, hhi, hpage⟩
  · obtain ⟨lo, hi, hreads, hlo, hhi, hpage⟩ := pointerAddrs_in_page_zero (memRead m cur)
    exact ⟨lo, hi, by rw [resolverReads_indirectY, hreads], hlo, hhi, hpage⟩
  · exact ⟨⟨_, rfl, indexWord_toNat _ x⟩, ⟨_, rfl, indexWord_toNat _ y⟩, ⟨_, rfl, indexWord_toNat _ y⟩⟩
  · exact ⟨1, [(0, 0x01), (1, 0xFF)], 1, 0, _, rfl, by decide⟩
  · exact ⟨1, [(0, 0x01), (1, 0xFF)], 0, 1, _, rfl, by decide⟩
  · exact ⟨0, [(0, 0x01), (1, 0xFF)], 0, 1, _, rfl, by decide⟩

end Sys2Proof.Machine
end

section
/-! Flags (42_flag_update.md): a successful step takes Z and N from the loaded byte, and every step leaves
the other flags as they were. -/

namespace Sys2Proof.Machine

open Sys2Proof.Claims

/-- Among the numbers of the 256 bytes only 0 sets Z. -/
theorem zeroFlag_ofNat {k : Nat} (hk : k ∈ List.range 256) : zeroFlag (BitVec.ofNat 8 k) = (k == 0) := by
  rw [zeroFlag_eq, BitVec.toNat_ofNat, Nat.mod_eq_of_lt (List.mem_range.mp hk)]
  rfl

/-- The flags after a successful step are those of the byte now in A (R107). -/
theorem step_flags {s t : State} (h : step s = .next t) : (t.z, t.n) = flagsFromResult t.a := by
  obtain ⟨m, -, rfl⟩ := step_next h
  rw [commitLoad_z, commitLoad_n, commitLoad_a, flagsFromResult]

/-- Z after a successful step, by `step_flags`. -/
theorem step_z {s t : State} (h : step s = .next t) : t.z = zeroFlag t.a :=
  congrArg Prod.fst (step_flags h)

/-- The commit of a load is within the frame of a load (10_state.md R37). -/
theorem commitLoad_sameButLoadTargets (w : Byte) (k : Nat) (s : State) :
    sameButLoadTargets s (commitLoad w k s) :=
  ⟨commitLoad_x w k s, commitLoad_y w k s, commitLoad_sp w k s, commitLoad_c w k s, commitLoad_v w k s,
    commitLoad_i w k s, commitLoad_d w k s, commitLoad_b w k s,
    fun addr => by rw [commitLoad_mem]⟩

/-- A step transaction, successful or not, is within the frame of a load. -/
theorem stepCall_sameButLoadTargets (s : State) : sameButLoadTargets s (stepCall s).2 := by
  rcases stepCall_cases s with ⟨-, hfail⟩ | ⟨m, -, hload⟩
  · rw [hfail]
    exact ⟨rfl, rfl, rfl, rfl, rfl, rfl, rfl, rfl, fun _ => rfl⟩
  · rw [hload]
    exact commitLoad_sameButLoadTargets _ _ s

/-- Settles O32: Z is `zeroFlag_eq` on every byte and, by `step_z`, on A after a step; counting the bytes
that set it counts the zeros among the 256 numbers. -/
theorem zeroFlagSaysAccumulatorIsZero : Obligations.ZeroFlagSaysAccumulatorIsZero := by
  refine ⟨zeroFlag_eq, ?_, fun s t h => by rw [step_z h, zeroFlag_eq]⟩
  calc ((List.range 256).filter fun k => zeroFlag (BitVec.ofNat 8 k)).length
      = ((List.range 256).filter (· == 0)).length := by
        rw [List.filter_congr fun _ hk => zeroFlag_ofNat hk]
    _ = (List.range 256).count 0 := List.countP_eq_length_filter.symm
    _ = 1 := List.count_eq_one_of_mem List.nodup_range (List.mem_range.mpr (by decide))

/-- Settles O35: I, D and B are in the frame `stepCall_sameButLoadTargets`. -/
theorem interruptDecimalBreakUnchangedByEveryStep :
    Obligations.InterruptDecimalBreakUnchangedByEveryStep := fun s => by
  obtain ⟨-, -, -, -, -, hi, hd, hb, -⟩ := stepCall_sameButLoadTargets s
  exact ⟨hi, hd, hb⟩

end Sys2Proof.Machine
end

section
/-! The eight instructions (43_load_accumulator.md R109 to R116): the commit of a load in numbers, the
step from the opcode byte at PC as the assembled instruction, and then each instruction by its effective
address. -/

namespace Sys2Proof.Machine

open Sys2Proof.Claims

/-! ### The commit and the operand read, in numbers -/

/-- The commit of a load is the spec's next state, the length being `1 + n` (30_encoding.md R69). -/
theorem commitLoad_eq_loaded (w : Byte) (k : Nat) (s : State) : commitLoad w k s = loaded s w (1 + k) := by
  have hpc : nextPc s.pc k = BitVec.ofNat 16 ((s.pc.toNat + (1 + k)) % 65536) :=
    word_eq_ofNat (by rw [nextPc_toNat, Nat.add_assoc])
  rw [commitLoad, loaded, hpc, zeroFlag_eq, negativeFlag_eq]

/-- Every instruction answers the spec's next state, loading the byte its source gives. -/
theorem exec_eq_loaded (i : Instr) (s : State) :
    exec i s = .next (loaded s (operandValue s.mem (sourceOf s i)) i.length) := by
  rw [exec_eq, commitLoad_eq_loaded, Instr.length]

/-- An instruction whose effective address is the number `k` loads the byte at `k`. -/
theorem exec_of_address {i : Instr} {s : State} {ea : Word} {k : Nat} (hsource : sourceOf s i = .addr ea)
    (hea : ea.toNat = k) : exec i s = .next (loaded s (byteAt s k) i.length) := by
  rw [exec_eq_loaded, hsource, ← hea, byteAt_toNat, operandValue]

/-! ### The instruction at PC -/

theorem operandByte_one (s : State) : operandByte s 1 = memRead s.mem (operandCursor s) := by
  rw [operandByte, byteAt, operandCursor, word_succ]

theorem operandByte_two (s : State) : operandByte s 2 = memRead s.mem (operandCursor s + 1) := by
  rw [operandByte, byteAt, operandCursor, word_succ_succ]

/-- The operand word is the two operand bytes, the low byte first (30_encoding.md R60). -/
theorem operandWord_eq_joinBytes (s : State) :
    operandWord s = (joinBytes (operandByte s 2) (operandByte s 1)).toNat :=
  (joinBytes_toNat _ _).symm

/-- With a mode's opcode byte at PC, a step executes that mode's load, its operand assembled from the
bytes after the opcode. -/
theorem step_of_opcode {s : State} (m : Mode) (h : byteAt s s.pc.toNat = m.opcode) :
    step s = exec (assemble m (operandByte s 1) (operandByte s 2)) s := by
  have hdecode : decodeOpcode (fetchOpcode s) = some (.lda, m) := by
    rw [fetchOpcode, ← byteAt_toNat, h, decodeOpcode_opcode]
  rw [step_of_implemented hdecode, exec_eq, assemble_mode, operandByte_one, operandByte_two,
    sourceOf_assemble]

/-- The operand bytes of an absolute address given in numbers, the low byte first (30_encoding.md R58). -/
theorem addressBytes_ofNat (b1 b2 : Byte) :
    [loByte (BitVec.ofNat 16 (b1.toNat + 256 * b2.toNat)),
      hiByte (BitVec.ofNat 16 (b1.toNat + 256 * b2.toNat))] = [b1, b2] := by
  rw [← word_eq_ofNat (joinBytes_toNat b2 b1), loByte_joinBytes, hiByte_joinBytes]

/-! ### What each instruction loads -/

theorem exec_ldaImm (b1 : Byte) (s : State) : exec (.ldaImm b1) s = .next (loaded s b1 2) :=
  exec_eq_loaded (.ldaImm b1) s

theorem exec_ldaZp (b1 : Byte) (s : State) :
    exec (.ldaZp b1) s = .next (loaded s (byteAt s b1.toNat) 2) :=
  exec_of_address rfl (eaZeroPage_toNat b1)

theorem exec_ldaZpX (b1 : Byte) (s : State) :
    exec (.ldaZpX b1) s = .next (loaded s (byteAt s ((b1.toNat + s.x.toNat) % 256)) 2) :=
  exec_of_address rfl (eaZeroPageX_toNat b1 s.x)

theorem exec_ldaAbs (abs : Word) (s : State) :
    exec (.ldaAbs abs) s = .next (loaded s (byteAt s abs.toNat) 3) :=
  exec_of_address rfl rfl

theorem exec_ldaAbsX (abs : Word) (s : State) :
    exec (.ldaAbsX abs) s = .next (loaded s (byteAt s ((abs.toNat + s.x.toNat) % 65536)) 3) :=
  exec_of_address rfl (indexWord_toNat abs s.x)

theorem exec_ldaAbsY (abs : Word) (s : State) :
    exec (.ldaAbsY abs) s = .next (loaded s (byteAt s ((abs.toNat + s.y.toNat) % 65536)) 3) :=
  exec_of_address rfl (indexWord_toNat abs s.y)

theorem exec_ldaIndX (b1 : Byte) (s : State) :
    exec (.ldaIndX b1) s =
      .next (loaded s (byteAt s (pointerAt s ((b1.toNat + s.x.toNat) % 256))) 2) :=
  exec_of_address rfl (eaIndirectX_toNat s b1 s.x)

theorem exec_ldaIndY (b1 : Byte) (s : State) :
    exec (.ldaIndY b1) s =
      .next (loaded s (byteAt s ((pointerAt s b1.toNat + s.y.toNat) % 65536)) 2) :=
  exec_of_address rfl (eaIndirectY_toNat s b1 s.y)

/-! ### The eight statements

Each is the instruction's `exec_` lemma, its encoding, and `step_of_opcode` followed by the same lemma. -/

/-- Settles O24: the value is the operand byte, and no memory is read for it. -/
theorem ldaImmediateLoads : Obligations.LdaImmediateLoads :=
  ⟨exec_ldaImm, fun _ => rfl, fun s h => (step_of_opcode .immediate h).trans (exec_ldaImm _ s)⟩

/-- Settles O25: the address is `eaZeroPage_toNat`. -/
theorem ldaZeroPageLoads : Obligations.LdaZeroPageLoads :=
  ⟨exec_ldaZp, fun _ => rfl, fun s h => (step_of_opcode .zeroPage h).trans (exec_ldaZp _ s)⟩

/-- Settles O26: the address is `eaZeroPageX_toNat`, a sum within page 0. -/
theorem ldaZeroPageXLoads : Obligations.LdaZeroPageXLoads :=
  ⟨exec_ldaZpX, fun _ => rfl, fun s h => (step_of_opcode .zeroPageX h).trans (exec_ldaZpX _ s)⟩

/-- Settles O27: the encoding by `addressBytes_ofNat`, the address of the step by
`operandWord_eq_joinBytes`. -/
theorem ldaAbsoluteLoads : Obligations.LdaAbsoluteLoads := by
  refine ⟨exec_ldaAbs, fun b1 b2 => congrArg (List.cons 0xAD) (addressBytes_ofNat b1 b2), fun s h => ?_⟩
  rw [step_of_opcode .absolute h, operandWord_eq_joinBytes]
  exact exec_ldaAbs _ s

/-- Settles O28, as for `ldaAbsoluteLoads`, with X added to the address. -/
theorem ldaAbsoluteXLoads : Obligations.LdaAbsoluteXLoads := by
  refine ⟨exec_ldaAbsX, fun b1 b2 => congrArg (List.cons 0xBD) (addressBytes_ofNat b1 b2), fun s h => ?_⟩
  rw [step_of_opcode .absoluteX h, operandWord_eq_joinBytes]
  exact exec_ldaAbsX _ s

/-- Settles O29, as for `ldaAbsoluteLoads`, with Y added to the address. -/
theorem ldaAbsoluteYLoads : Obligations.LdaAbsoluteYLoads := by
  refine ⟨exec_ldaAbsY, fun b1 b2 => congrArg (List.cons 0xB9) (addressBytes_ofNat b1 b2), fun s h => ?_⟩
  rw [step_of_opcode .absoluteY h, operandWord_eq_joinBytes]
  exact exec_ldaAbsY _ s

/-- Settles O30: the address is `eaIndirectX_toNat`, X added before the pointer is read. -/
theorem ldaIndirectXLoads : Obligations.LdaIndirectXLoads :=
  ⟨exec_ldaIndX, fun _ => rfl, fun s h => (step_of_opcode .indirectX h).trans (exec_ldaIndX _ s)⟩

/-- Settles O31: the address is `eaIndirectY_toNat`, Y added after the pointer is read. -/
theorem ldaIndirectYLoads : Obligations.LdaIndirectYLoads :=
  ⟨exec_ldaIndY, fun _ => rfl, fun s h => (step_of_opcode .indirectY h).trans (exec_ldaIndY _ s)⟩

end Sys2Proof.Machine
end

section
/-! The one exception (60_exceptions.md R117, R119): which opcodes the table lacks and how many, then where a
step fails and that it fails nowhere else. -/

namespace Sys2Proof

/-- The lookup gives none exactly for a byte that no row of the table has (30_encoding.md R71). -/
theorem lookupOpcode_eq_none_iff (rows : List OpcodeRow) (op : Byte) :
    lookupOpcode rows op = none ↔ op ∉ rows.map (·.opcode) := by
  induction rows with
  | nil => simp [lookupOpcode]
  | cons r rest ih =>
    by_cases hr : r.opcode = op
    · simp [lookupOpcode, hr]
    · simp [lookupOpcode, hr, ih, Ne.symm hr]

/-- The opcode bytes of the table, as numbers. -/
def opcodeNumbers : Finset Nat := (opcodeMap.map (·.opcode.toNat)).toFinset

/-- Among the numbers of the 256 bytes those without a row are the ones outside `opcodeNumbers`. -/
theorem decodeOpcode_ofNat_isNone {k : Nat} (hk : k ∈ List.range 256) :
    (decodeOpcode (BitVec.ofNat 8 k)).isNone = decide (k ∉ opcodeNumbers) := by
  have hsame (r : OpcodeRow) : r.opcode = BitVec.ofNat 8 k ↔ r.opcode.toNat = k := by
    rw [BitVec.toNat_eq, BitVec.toNat_ofNat, Nat.mod_eq_of_lt (List.mem_range.mp hk)]
  rw [Bool.eq_iff_iff, decide_eq_true_iff, Option.isNone_iff_eq_none, decodeOpcode,
    lookupOpcode_eq_none_iff, opcodeNumbers, List.mem_toFinset, List.mem_map, List.mem_map]
  simp only [hsame]

/-- All but the table's eight bytes have no row: `256 - 8` of them (R63). -/
theorem unimplementedOpcodes_length :
    ((List.range 256).filter fun k => (decodeOpcode (BitVec.ofNat 8 k)).isNone).length = 248 := by
  have hcard : opcodeNumbers.card = 8 := rfl
  have hbytes : opcodeNumbers ⊆ Finset.range 256 := by decide
  calc ((List.range 256).filter fun k => (decodeOpcode (BitVec.ofNat 8 k)).isNone).length
      = ((List.range 256).filter fun k => decide (k ∉ opcodeNumbers)).length := by
        rw [List.filter_congr fun _ hk => decodeOpcode_ofNat_isNone hk]
    _ = ((Finset.range 256).filter (· ∉ opcodeNumbers)).card := rfl
    _ = 256 - 8 := by
        rw [Finset.filter_notMem_eq_sdiff, Finset.card_sdiff_of_subset hbytes, Finset.card_range, hcard]

namespace Machine

/-- Settles O20: every meaning commits a load (`exec_eq`), a step whose opcode has a row is
`step_of_implemented`, and the other two clauses are the inversion of `step`. -/
theorem noFailurePathAfterDecode : Obligations.NoFailurePathAfterDecode :=
  ⟨fun i s => ⟨_, exec_eq i s⟩, fun _ _ h => ⟨_, step_of_implemented h⟩, fun _ _ h => step_fault h,
    step_ne_refused⟩

/-- Settles O21: a step faults where the opcode has no row (`step_of_unimplemented`) and only there
(`step_fault`), with the reply, the state and the reads of such a step. -/
theorem unimplementedOpcodeLeavesStateUnchanged : Obligations.UnimplementedOpcodeLeavesStateUnchanged := by
  refine ⟨fun s => ⟨step_of_unimplemented, fun h => ?_⟩, fun s h => ?_, unimplementedOpcodes_length⟩
  · obtain ⟨-, hdecode⟩ := step_fault h
    exact hdecode
  · exact ⟨hostCall_step_of_unimplemented h, stepReads_of_unimplemented h⟩

end Machine

end Sys2Proof
end

section
/-! Decoder and encoder as inverses (30_encoding.md sections 1 to 3): the operand bytes of an assembled
instruction, the two round trips, and the opcode table byte by byte. -/

namespace Sys2Proof

/-! ### Operand bytes of an assembled instruction (R58, R60) -/

/-- Assembly keeps exactly the operand bytes the mode has. -/
theorem operandList_assemble (m : Mode) (b1 b2 : Byte) :
    (assemble m b1 b2).operandList = [b1, b2].take m.operandBytes := by
  cases m <;> simp [assemble, Instr.operandList, Mode.operandBytes]

theorem encode_assemble (m : Mode) (b1 b2 : Byte) :
    encode (assemble m b1 b2) = m.opcode :: [b1, b2].take m.operandBytes := by
  rw [encode, assemble_mode, operandList_assemble]

/-- A mode with one operand byte takes nothing from the second. -/
theorem assemble_of_one {m : Mode} (h : m.operandBytes = 1) (b1 b2 b2' : Byte) :
    assemble m b1 b2 = assemble m b1 b2' := by
  cases m with
  | absolute | absoluteX | absoluteY => cases h
  | immediate | zeroPage | zeroPageX | indirectX | indirectY => rfl

/-! ### The round trips -/

theorem wellFormed_eq_true (i : Instr) : WellFormed i = true := by
  cases i <;> rfl

/-- Decoding the operand bytes of an instruction in its mode gives it back: a byte operand as it stands, a
word from its two halves. -/
theorem decodeOperands_operandList (i : Instr) (rest : List Byte) :
    decodeOperands i.mode (i.operandList ++ rest) = .ok (i, rest) := by
  cases i with
  | ldaImm | ldaZp | ldaZpX | ldaIndX | ldaIndY => rfl
  | ldaAbs abs16 | ldaAbsX abs16 | ldaAbsY abs16 =>
    simp [decodeOperands, Instr.mode, Mode.operandBytes, Instr.operandList, assemble]

theorem decode_encode (i : Instr) (rest : List Byte) : decode (encode i ++ rest) = .ok (i, rest) := by
  rw [encode, List.cons_append, decode_of_implemented (decodeOpcode_opcode i.mode),
    decodeOperands_operandList]

/-- Settles O3: the opcode byte finds the mode's row, and the operand bytes decode in that mode. -/
theorem decodeOfEncodeIsIdentity : Obligations.DecodeOfEncodeIsIdentity := fun i rest =>
  ⟨wellFormed_eq_true i, decode_encode i rest⟩

/-- Settles O4: the opcode byte is its mode's (`opcode_of_decodeOpcode`), and the operand bytes taken are
the ones `encode_assemble` gives back. -/
theorem encodeOfDecodeIsIdentity : Obligations.EncodeOfDecodeIsIdentity := by
  intro bytes rest i h
  cases bytes with
  | nil => cases h
  | cons op tail =>
    obtain ⟨m, hop, hoperands⟩ := decode_ok h
    obtain rfl := opcode_of_decodeOpcode hop
    rcases decodeOperands_ok hoperands with ⟨hn, b1, rfl, rfl⟩ | ⟨hn, b1, b2, rfl, rfl⟩
    · rw [encode_assemble, hn]; rfl
    · rw [encode_assemble, hn]; rfl

/-! ### The table -/

/-- Settles O1: a row's byte is its mode's opcode byte, the bytes without a row are the ones
`lookupOpcode_eq_none_iff` gives, and the constants are the table's first two columns. -/
theorem decoderTableHasExactlyTheEightRows : Obligations.DecoderTableHasExactlyTheEightRows :=
  ⟨decodeOpcode_opcode .immediate, decodeOpcode_opcode .zeroPage, decodeOpcode_opcode .zeroPageX,
    decodeOpcode_opcode .absolute, decodeOpcode_opcode .absoluteX, decodeOpcode_opcode .absoluteY,
    decodeOpcode_opcode .indirectX, decodeOpcode_opcode .indirectY,
    fun op h => (lookupOpcode_eq_none_iff opcodeMap op).mpr h, rfl, fun _ => rfl⟩

/-- Settles O2: the bytes of the map are finitely many, and each has the row its bit fields say. -/
theorem decoderMatchesTheBitFields : Obligations.DecoderMatchesTheBitFields := by
  unfold Obligations.DecoderMatchesTheBitFields
  decide

/-- Settles O6: each word is the encoding of the instruction it stands for, with nothing after it. -/
theorem specWordsDecodeAsWritten : Obligations.SpecWordsDecodeAsWritten :=
  ⟨decode_encode (.ldaImm 0x7F) [], decode_encode (.ldaZp 0x10) [], decode_encode (.ldaZpX 0x1E) [],
    decode_encode (.ldaAbs 0x1234) [], decode_encode (.ldaAbsX 0x2310) [],
    decode_encode (.ldaAbsY 0x20FF) [], decode_encode (.ldaIndX 0x1C) [],
    decode_encode (.ldaIndY 0xFF) []⟩

end Sys2Proof
end

section
/-! The canonical form of memory (log entry 14): construction has it, every transaction and action keeps
it, and it is one list per memory. Only a write to an address changes the byte there. -/

namespace Sys2Proof.Machine

open Sys2Proof.Safety

/-- Every core of a list has canonical memory after an action: the acted-on one by `hostCall_stateInv`, a
new one by `construct_wf`. -/
theorem platformAct_stateInv (act : PlatformAction) {cores : List State} (hcores : ∀ s ∈ cores, StateInv s) :
    ∀ s ∈ (platformAct act cores).2, StateInv s := by
  cases act with
  | construct ra rs =>
    rw [platformAct_construct]
    exact List.forall_mem_append.mpr ⟨hcores, List.forall_mem_singleton.mpr (construct_wf ra rs)⟩
  | call k c =>
    cases hk : cores[k]? with
    | none => rw [platformAct_call_of_none hk]; exact hcores
    | some s =>
      rw [platformAct_call_of_some hk]
      intro t ht
      rcases List.mem_or_eq_of_mem_set ht with hmem | rfl
      · exact hcores t hmem
      · exact hostCall_stateInv c (hcores s (List.mem_of_getElem? hk))

/-- Settles O42: a transaction by `hostCall_stateInv`, an action on a list of cores by
`platformAct_stateInv`. -/
theorem everyTransactionKeepsCanonicalMemory : Obligations.EveryTransactionKeepsCanonicalMemory :=
  ⟨fun c _ hs => hostCall_stateInv c hs, fun act _ hcores => platformAct_stateInv act hcores⟩

/-- Settles O43: reset is one construction. -/
theorem constructionMeetsTheInvariant : Obligations.ConstructionMeetsTheInvariant :=
  ⟨construct_wf, construct_wf Config.resetAddr Config.resetSP⟩

/-- A successful step leaves memory as it was: no form stores. -/
theorem step_mem {s t : State} (h : step s = .next t) : t.mem = s.mem := by
  obtain ⟨m, -, rfl⟩ := step_next h
  exact commitLoad_mem _ _ s

/-- Settles O41: the memory is the same one, by `step_mem`. -/
theorem stepKeepsCanonicalMemory : Obligations.StepKeepsCanonicalMemory := fun s t hs h => by
  rw [StateInv, step_mem h]
  exact hs

/-- Settles O38: any other transaction leaves the byte, by `hostCall_read_other`. -/
theorem onlyHostWritesChangeMemory : Obligations.OnlyHostWritesChangeMemory := by
  intro c s addr hchanged
  by_contra hno
  exact hchanged (hostCall_read_other (fun v hc => hno ⟨v, hc⟩) s)

/-- Settles O39: every number below 65536 is an address, so `Memory.ext_of_wfFrom` applies. -/
theorem canonicalMemoriesThatReadAlikeAreEqual : Obligations.CanonicalMemoriesThatReadAlikeAreEqual := by
  intro m m' hm hm' hread
  refine Memory.ext_of_wfFrom hm hm' fun k hk => ?_
  have hk' : (BitVec.ofNat 16 k).toNat = k := (BitVec.toNat_ofNat k 16).trans (Nat.mod_eq_of_lt hk)
  have hbyte := hread (BitVec.ofNat 16 k)
  rwa [memRead, memRead, hk'] at hbyte

end Sys2Proof.Machine
end

section
/-! The direct modes of the resolver and the two 16-bit reads (40_addressing_modes.md R74 to R79,
20_memory.md R44), then every mode at the operand cursor in the spec's numbers. -/

namespace Sys2Proof.Machine

open Sys2Proof.Claims

/-! ### The 16-bit reads in numbers -/

theorem byteAt_succ (s : State) (a : Word) :
    byteAt s ((a.toNat + 1) % 65536) = memRead s.mem (a + 1) := by
  rw [byteAt, ← word_succ]

/-- `Read16LE` as a number: the second byte wraps mod 65536. -/
theorem read16LE_toNat_eq_byteAt (s : State) (a : Word) :
    (read16LE s.mem a).toNat =
      (byteAt s a.toNat).toNat + 256 * (byteAt s ((a.toNat + 1) % 65536)).toNat := by
  rw [read16LE_toNat, byteAt_toNat, byteAt_succ]

/-- Settles O11: both reads are a low and a high byte joined, the second wrapping as its rule says. -/
theorem littleEndianReadCompositions : Obligations.LittleEndianReadCompositions := fun s a p =>
  ⟨read16LE_toNat_eq_byteAt s a, readZP16_toNat_eq_pointerAt s p⟩

/-! ### The direct modes -/

theorem resolve_immediate (cur : Word) (m : Memory) (x y : Byte) :
    resolve .immediate cur m x y = (.imm (memRead m cur), 1) := rfl

theorem resolve_absolute (cur : Word) (m : Memory) (x y : Byte) :
    resolve .absolute cur m x y = (.addr (read16LE m cur), 2) := rfl

theorem resolve_absoluteX (cur : Word) (m : Memory) (x y : Byte) :
    resolve .absoluteX cur m x y = (.addr (indexWord (read16LE m cur) x), 2) := rfl

theorem resolve_absoluteY (cur : Word) (m : Memory) (x y : Byte) :
    resolve .absoluteY cur m x y = (.addr (indexWord (read16LE m cur) y), 2) := rfl

/-- A mode without a pointer whose operand is one byte reads that byte alone (R85). -/
theorem resolverReads_direct_one {m : Mode} (h : m = .immediate ∨ m = .zeroPage ∨ m = .zeroPageX)
    (cur : Word) (mem : Memory) (x : Byte) : resolverReads m cur mem x = [cur] := by
  rcases h with rfl | rfl | rfl <;> rw [resolverReads, operandAddrs_one rfl, List.append_nil]

/-- The absolute modes read their two operand bytes alone (R85). -/
theorem resolverReads_direct_two {m : Mode} (h : m = .absolute ∨ m = .absoluteX ∨ m = .absoluteY)
    (cur : Word) (mem : Memory) (x : Byte) : resolverReads m cur mem x = [cur, cur + 1] := by
  rcases h with rfl | rfl | rfl <;> rw [resolverReads, operandAddrs_two rfl, List.append_nil]

/-- Settles O7: the absolute address is `read16LE_toNat_eq_byteAt`, indexed by `indexWord_toNat`; the
second operand byte stands at the cursor's successor. -/
theorem resolverDirectModes : Obligations.ResolverDirectModes := by
  intro cur s b1 second abs
  have hb1 : byteAt s cur.toNat = memRead s.mem cur := byteAt_toNat s cur
  have habs : (read16LE s.mem cur).toNat = abs := read16LE_toNat_eq_byteAt s cur
  have hsecond : cur + 1 = BitVec.ofNat 16 second := word_succ cur
  refine ⟨?_, ?_, ?_, ?_, ?_, ?_, ?_, ?_, ?_, ?_⟩
  · rw [resolve_immediate, hb1]
  · rw [resolve_zeroPage, ← hb1, word_eq_ofNat (eaZeroPage_toNat _)]
  · rw [resolve_absolute, word_eq_ofNat habs]
  · rw [resolve_absoluteX, word_eq_ofNat (indexWord_toNat _ s.x), habs]
  · rw [resolve_absoluteY, word_eq_ofNat (indexWord_toNat _ s.y), habs]
  · exact resolverReads_direct_one (by decide) cur s.mem s.x
  · exact resolverReads_direct_one (by decide) cur s.mem s.x
  · rw [resolverReads_direct_two (by decide), hsecond]
  · rw [resolverReads_direct_two (by decide), hsecond]
  · rw [resolverReads_direct_two (by decide), hsecond]

/-! ### Every mode at the operand cursor -/

/-- The operand source of a mode for the instruction at PC, the effective address in the spec's numbers
(R74 to R81). -/
def specSource (s : State) : Mode → OperandSource
  | .immediate => .imm (operandByte s 1)
  | .zeroPage => .addr (BitVec.ofNat 16 (operandByte s 1).toNat)
  | .zeroPageX => .addr (BitVec.ofNat 16 (((operandByte s 1).toNat + s.x.toNat) % 256))
  | .absolute => .addr (BitVec.ofNat 16 (operandWord s))
  | .absoluteX => .addr (BitVec.ofNat 16 ((operandWord s + s.x.toNat) % 65536))
  | .absoluteY => .addr (BitVec.ofNat 16 ((operandWord s + s.y.toNat) % 65536))
  | .indirectX => .addr (BitVec.ofNat 16 (pointerAt s (((operandByte s 1).toNat + s.x.toNat) % 256)))
  | .indirectY =>
    .addr (BitVec.ofNat 16 ((pointerAt s (operandByte s 1).toNat + s.y.toNat) % 65536))

theorem read16LE_operandCursor (s : State) : (read16LE s.mem (operandCursor s)).toNat = operandWord s := by
  rw [read16LE_toNat, operandWord, operandByte_one, operandByte_two]

/-- The resolver at the operand cursor gives the spec's source. -/
theorem resolve_operandCursor (s : State) (m : Mode) :
    (resolve m (operandCursor s) s.mem s.x s.y).1 = specSource s m := by
  have hb1 := operandByte_one s
  have hword := read16LE_operandCursor s
  cases m with
  | immediate => rw [resolve_immediate, specSource, hb1]
  | zeroPage => rw [resolve_zeroPage, specSource, hb1, word_eq_ofNat (eaZeroPage_toNat _)]
  | zeroPageX => rw [resolve_zeroPageX, specSource, hb1, word_eq_ofNat (eaZeroPageX_toNat _ s.x)]
  | absolute => rw [resolve_absolute, specSource, word_eq_ofNat hword]
  | absoluteX => rw [resolve_absoluteX, specSource, word_eq_ofNat (indexWord_toNat _ s.x), hword]
  | absoluteY => rw [resolve_absoluteY, specSource, word_eq_ofNat (indexWord_toNat _ s.y), hword]
  | indirectX => rw [resolve_indirectX, specSource, hb1, word_eq_ofNat (eaIndirectX_toNat s _ s.x)]
  | indirectY => rw [resolve_indirectY, specSource, hb1, word_eq_ofNat (eaIndirectY_toNat s _ s.y)]

/-- Read through the spec's source, the operand is the spec's. -/
theorem operandValue_specSource (s : State) (m : Mode) :
    operandValue s.mem (specSource s m) = specOperand s m := by
  cases m <;> rfl

end Sys2Proof.Machine
end

section
/-! The step as the spec's cycle (41_fetch_decode_execute.md section 1): its reads, what it commits, and
what that leaves unchanged. -/

namespace Sys2Proof.Machine

open Sys2Proof.Claims

/-! ### The reads of a step (40_addressing_modes.md R85) -/

theorem stepReads_of_implemented {s : State} {o : Operation} {m : Mode}
    (h : decodeOpcode (fetchOpcode s) = some (o, m)) :
    stepReads s = s.pc :: (resolverReads m (operandCursor s) s.mem s.x ++
      sourceReads (resolve m (operandCursor s) s.mem s.x s.y).1) := by
  cases o
  simp only [stepReads, h]

theorem operandCursor_eq_ofNat (s : State) :
    operandCursor s = BitVec.ofNat 16 ((s.pc.toNat + 1) % 65536) := word_succ s.pc

theorem operandCursor_succ_eq_ofNat (s : State) :
    operandCursor s + 1 = BitVec.ofNat 16 ((s.pc.toNat + 2) % 65536) := word_succ_succ s.pc

/-- Settles O12: after PC come the operand bytes of the mode, the pointer bytes of an indirect one
(`pointerAddrs_eq_ofNat`), and the address of `specSource`. -/
theorem stepReadsFollowTheTable : Obligations.StepReadsFollowTheTable := by
  intro s b1 b2 zp
  have hb1 : operandCursor s = b1 := operandCursor_eq_ofNat s
  have hb2 : operandCursor s + 1 = b2 := operandCursor_succ_eq_ofNat s
  have hzp : (memRead s.mem (operandCursor s)).toNat = zp := by rw [← operandByte_one]
  have hone {m : Mode} (hm : m = .immediate ∨ m = .zeroPage ∨ m = .zeroPageX) :
      resolverReads m (operandCursor s) s.mem s.x = [b1] := by
    rw [resolverReads_direct_one hm, hb1]
  have htwo {m : Mode} (hm : m = .absolute ∨ m = .absoluteX ∨ m = .absoluteY) :
      resolverReads m (operandCursor s) s.mem s.x = [b1, b2] := by
    rw [resolverReads_direct_two hm, hb2, hb1]
  rw [byteAt_toNat, ← fetchOpcode]
  cases hop : decodeOpcode (fetchOpcode s) with
  | none => exact stepReads_of_unimplemented hop
  | some row =>
    obtain ⟨⟨⟩, m⟩ := row
    have hreads := stepReads_of_implemented hop
    rw [resolve_operandCursor] at hreads
    cases m with
    | immediate | zeroPage | zeroPageX => rw [hone (by decide)] at hreads; exact hreads
    | absolute | absoluteX | absoluteY => rw [htwo (by decide)] at hreads; exact hreads
    | indirectX =>
      rw [resolverReads_indirectX, pointerAddrs_eq_ofNat, zeroPageIndex_toNat, hzp, hb1] at hreads
      exact hreads
    | indirectY =>
      rw [resolverReads_indirectY, pointerAddrs_eq_ofNat, hzp, hb1] at hreads
      exact hreads

/-! ### The cycle -/

theorem specLength_eq (m : Mode) : specLength m = 1 + m.operandBytes := by
  cases m <;> rfl

/-- The commit of a step whose opcode has a row is the spec's next state. -/
theorem commitLoad_resolve_eq_loaded (s : State) (m : Mode) :
    commitLoad (operandValue s.mem (resolve m (operandCursor s) s.mem s.x s.y).1) m.operandBytes s =
      loaded s (specOperand s m) (specLength m) := by
  rw [resolve_operandCursor, operandValue_specSource, commitLoad_eq_loaded, specLength_eq]

/-- Settles O14: both sides branch on the byte at PC, and with a row each loads the spec's operand. -/
theorem stepIsTheSpecCycle : Obligations.StepIsTheSpecCycle := by
  intro s
  have hfetch : byteAt s s.pc.toNat = fetchOpcode s := byteAt_toNat s s.pc
  rcases step_cases s with ⟨hop, hstep⟩ | ⟨m, hop, hstep⟩
  · simp only [hstep, specStep, hfetch, hop]
  · simp only [hstep, specStep, hfetch, hop, commitLoad_resolve_eq_loaded]

/-- Settles O22: `stepCall_cases`, what is committed being the spec's next state. -/
theorem stepCommitsWhollyOrNotAtAll : Obligations.StepCommitsWhollyOrNotAtAll := by
  intro s
  rcases stepCall_cases s with ⟨hop, hcall⟩ | ⟨m, hop, hcall⟩
  · exact .inr ⟨hop, hcall⟩
  · rw [commitLoad_resolve_eq_loaded] at hcall
    exact .inl ⟨m, hop, hcall⟩

/-- Settles O17: the commit's `nextPc`, in numbers. -/
theorem successfulStepAdvancesPc : Obligations.SuccessfulStepAdvancesPc := by
  intro s t h
  obtain ⟨m, hop, rfl⟩ := step_next h
  have hpc := nextPc_toNat s.pc m.operandBytes
  exact ⟨m, hop, hpc, by rw [specLength_eq, ← Nat.add_assoc]; exact hpc⟩

/-! ### The frame -/

/-- Settles O18: every instruction commits a load (`exec_eq`), whose frame is
`commitLoad_sameButLoadTargets`. -/
theorem loadFrame : Obligations.LoadFrame := by
  intro i s t h
  rw [exec_eq] at h
  cases h
  exact commitLoad_sameButLoadTargets _ _ s

/-- Settles O19: a successful step commits a load; a failed one gives its state back. -/
theorem stepWritesOnlyAccumulatorZNAndPc : Obligations.StepWritesOnlyAccumulatorZNAndPc := by
  refine ⟨fun s t h => ⟨?_, step_mem h⟩, fun s e h => ?_⟩
  · obtain ⟨m, -, rfl⟩ := step_next h
    exact commitLoad_sameButLoadTargets _ _ s
  · obtain ⟨-, hop⟩ := step_fault h
    rw [hostCall_step_of_unimplemented hop]

/-- Settles O33: N is `negativeFlag_eq` on every byte and, by `step_flags`, on A after a step; a byte of at
least 128 is not zero. -/
theorem negativeFlagIsBitSevenOfAccumulator : Obligations.NegativeFlagIsBitSevenOfAccumulator := by
  have hflags (r : Byte) : (flagsFromResult r).2 = r.getLsbD 7 ∧
      (flagsFromResult r).2 = decide (128 ≤ r.toNat) ∧
      ¬((flagsFromResult r).1 = true ∧ (flagsFromResult r).2 = true) := by
    refine ⟨rfl, negativeFlag_eq r, ?_⟩
    rw [flagsFromResult, zeroFlag_eq, negativeFlag_eq, decide_eq_true_iff, decide_eq_true_iff]
    omega
  refine ⟨hflags, fun s t h => ?_⟩
  have hstep := hflags t.a
  rwa [← step_flags h] at hstep

/-! ### What a step reads of the state -/

/-- Settles O16: the step branches on, and loads, what PC, X, Y and memory give; the commit overwrites A,
Z and N and passes the other six through. -/
theorem stepReadsNoFlagNorAccumulatorNorSP : Obligations.StepReadsNoFlagNorAccumulatorNorSP := by
  intro s a sp zf nf cf vf idf df bf
  rcases step_cases s with ⟨hop, hstep⟩ | ⟨m, hop, hstep⟩
  · rw [hstep]
    exact step_of_unimplemented hop
  · rw [hstep]
    exact step_of_implemented (s := withInert cf vf idf df bf sp { s with a := a, z := zf, n := nf }) hop

theorem read16LE_congr {m m' : Memory} {a : Word} (hlo : memRead m' a = memRead m a)
    (hhi : memRead m' (a + 1) = memRead m (a + 1)) : read16LE m' a = read16LE m a := by
  rw [read16LE, read16LE, hlo, hhi]

theorem readZP16_congr {m m' : Memory} {p : Byte}
    (h : ∀ a ∈ pointerAddrs p, memRead m' a = memRead m a) : readZP16 m' p = readZP16 m p := by
  have hlo := h (zext16 p) (by simp [pointerAddrs])
  have hhi := h (zext16 (p + 1)) (by simp [pointerAddrs])
  rw [readZP16, readZP16, hlo, hhi]

/-- The cursor is among the addresses every mode reads. -/
theorem cursor_mem_resolverReads (mode : Mode) (cur : Word) (m : Memory) (x : Byte) :
    cur ∈ resolverReads mode cur m x := by
  refine List.mem_append_left _ ?_
  rcases operandBytes_eq mode with h | h
  · rw [operandAddrs_one h]; exact List.mem_cons_self
  · rw [operandAddrs_two h]; exact List.mem_cons_self

/-- A memory with the same bytes at the addresses the resolver reads resolves alike. -/
theorem resolve_congr {mode : Mode} {cur : Word} {m m' : Memory} {x : Byte} (y : Byte)
    (h : ∀ a ∈ resolverReads mode cur m x, memRead m' a = memRead m a) :
    resolverReads mode cur m' x = resolverReads mode cur m x ∧
      resolve mode cur m' x y = resolve mode cur m x y := by
  have hcur := h cur (cursor_mem_resolverReads mode cur m x)
  cases mode with
  | immediate | zeroPage | zeroPageX => exact ⟨rfl, by simp only [resolve, hcur]⟩
  | absolute | absoluteX | absoluteY =>
    have hword : read16LE m' cur = read16LE m cur := by
      rw [resolverReads_direct_two (by decide)] at h
      exact read16LE_congr hcur (h (cur + 1) (by simp))
    exact ⟨rfl, by simp only [resolve, hword]⟩
  | indirectX =>
    rw [resolverReads_indirectX] at h
    have hptr := readZP16_congr fun a ha => h a (List.mem_cons_of_mem cur ha)
    exact ⟨by rw [resolverReads_indirectX, resolverReads_indirectX, hcur],
      by simp only [resolve_indirectX, eaIndirectX, hcur, hptr]⟩
  | indirectY =>
    rw [resolverReads_indirectY] at h
    have hptr := readZP16_congr fun a ha => h a (List.mem_cons_of_mem cur ha)
    exact ⟨by rw [resolverReads_indirectY, resolverReads_indirectY, hcur],
      by simp only [resolve_indirectY, eaIndirectY, hcur, hptr]⟩

theorem operandValue_congr {m m' : Memory} {src : OperandSource}
    (h : ∀ a ∈ sourceReads src, memRead m' a = memRead m a) : operandValue m' src = operandValue m src := by
  cases src with
  | imm v => rfl
  | addr ea => exact h ea (List.mem_singleton_self ea)

/-- Settles O15: the other memory has the same opcode, so the same mode; then the same operand source and
reads (`resolve_congr`), and the same byte behind that source (`operandValue_congr`). -/
theorem stepDependsOnlyOnTheBytesItReads : Obligations.StepDependsOnlyOnTheBytesItReads := by
  intro s m h
  have hfetch : fetchOpcode { s with mem := m } = fetchOpcode s := h s.pc List.mem_cons_self
  have hdecode := congrArg decodeOpcode hfetch
  have hcursor : operandCursor { s with mem := m } = operandCursor s := rfl
  rcases step_cases s with ⟨hop, hstep⟩ | ⟨mode, hop, hstep⟩
  · have hop' := hdecode.trans hop
    rw [stepReads_of_unimplemented hop, stepReads_of_unimplemented hop', hstep, step_of_unimplemented hop']
    exact ⟨rfl, rfl⟩
  · have hop' := hdecode.trans hop
    simp only [stepReads_of_implemented hop, List.mem_cons, List.mem_append] at h
    obtain ⟨hreads, hresolve⟩ := resolve_congr s.y fun a ha => h a (.inr (.inl ha))
    have hvalue := operandValue_congr fun a ha => h a (.inr (.inr ha))
    constructor
    · rw [stepReads_of_implemented hop, stepReads_of_implemented hop', hcursor, hreads, hresolve]
    · rw [hstep, step_of_implemented hop', hcursor, hresolve, hvalue]
      rfl

end Sys2Proof.Machine
end

section
/-! The instruction at PC (41_fetch_decode_execute.md R89) and how the host places one there
(70_reset_and_hazards.md R136): the bytes found in memory, decoded, are what the step runs. -/

namespace Sys2Proof.Machine

open Sys2Proof.Claims Sys2Proof.Safety

/-! ### The instruction at PC -/

/-- What the first byte of a non-empty row of bytes in memory is. -/
theorem bytesAt_eq_cons {m : Memory} {a : Word} {n : Nat} {b : Byte} {bs : List Byte}
    (h : bytesAt m a n = b :: bs) : memRead m a = b ∧ ∃ k, bytesAt m (a + 1) k = bs := by
  cases n with
  | zero => cases h
  | succ k => cases h; exact ⟨rfl, k, rfl⟩

theorem step_eq_exec_assemble {s : State} {m : Mode} (h : decodeOpcode (fetchOpcode s) = some (.lda, m)) :
    step s = exec (assemble m (memRead s.mem (operandCursor s)) (memRead s.mem (operandCursor s + 1))) s := by
  simp only [step, fetchInstr, h]

/-- However many bytes from PC on are looked at, an instruction they decode to is the one the step runs. -/
theorem step_of_decode_bytesAt {s : State} {n : Nat} {i : Instr} {rest : List Byte}
    (h : decode (bytesAt s.mem s.pc n) = .ok (i, rest)) : step s = exec i s := by
  cases n with
  | zero => cases h
  | succ k =>
    obtain ⟨m, hop, hoperands⟩ := decode_ok h
    rw [step_eq_exec_assemble hop]
    rcases decodeOperands_ok hoperands with ⟨hn, b1, hbytes, rfl⟩ | ⟨hn, b1, b2, hbytes, rfl⟩
    · obtain ⟨hb1, -⟩ := bytesAt_eq_cons hbytes
      rw [assemble_of_one hn b1 0 (memRead s.mem (operandCursor s + 1)), operandCursor, hb1]
    · obtain ⟨hb1, k', hbytes'⟩ := bytesAt_eq_cons hbytes
      obtain ⟨hb2, -⟩ := bytesAt_eq_cons hbytes'
      rw [operandCursor, hb1, hb2]

/-- Settles O13: `step_of_decode_bytesAt` at the longest instruction's three bytes. -/
theorem stepRunsTheDecodedInstruction : Obligations.StepRunsTheDecodedInstruction := fun _ i _ h =>
  ⟨wellFormed_eq_true i, step_of_decode_bytesAt h⟩

/-! ### Bytes the host places -/

/-- The write transactions for a list of bytes store them one after the other. -/
theorem hostCalls_writesAt (bytes : List Byte) (a : Word) (s : State) :
    hostCalls (writesAt a bytes) s = s.storeBytes a bytes := by
  induction bytes generalizing a s with
  | nil => rfl
  | cons v rest ih =>
    have hv : (hostCall (.memWrite a v.toNat) s).2 = s.storeByte a v := by
      simp only [hostCall, BitVec.ofNat_toNat, BitVec.setWidth_eq]
    rw [writesAt, hostCalls, hv, ih, State.storeBytes]

@[simp] theorem State.storeBytes_pc (bytes : List Byte) (a : Word) (s : State) :
    (s.storeBytes a bytes).pc = s.pc := by
  induction bytes generalizing a s with
  | nil => rfl
  | cons v rest ih => exact ih (a + 1) (s.storeByte a v)

/-- Stored bytes leave an address they do not reach. -/
theorem memRead_storeBytes_other {bytes : List Byte} {a b : Word} (s : State)
    (h : ∀ k < bytes.length, b ≠ a + BitVec.ofNat 16 k) :
    memRead (s.storeBytes a bytes).mem b = memRead s.mem b := by
  induction bytes generalizing a s with
  | nil => rfl
  | cons v rest ih =>
    have hfirst : b ≠ a := by simpa using h 0 (by simp)
    have hrest : ∀ k < rest.length, b ≠ a + 1 + BitVec.ofNat 16 k := fun k hk => by
      have hk' := h (k + 1) (by simpa using hk)
      rwa [Nat.add_comm, BitVec.ofNat_add, ← BitVec.add_assoc] at hk'
    rw [State.storeBytes, ih _ hrest, State.storeByte_mem, memRead_memWrite_other hfirst]

/-- The address a row of bytes starts at is not reached again before the address space wraps. -/
theorem ne_succ_add_ofNat {k : Nat} (hk : k + 1 < 65536) (a : Word) : a ≠ a + 1 + BitVec.ofNat 16 k := by
  intro h
  have hnat := congrArg BitVec.toNat h
  rw [BitVec.toNat_add, BitVec.toNat_add, BitVec.toNat_ofNat] at hnat
  have h1 : (1 : Word).toNat = 1 := rfl
  omega

/-- Bytes placed without wrapping onto each other are the bytes found there. -/
theorem bytesAt_storeBytes {bytes : List Byte} (hlen : bytes.length ≤ 65536) (a : Word) {s : State}
    (hs : StateInv s) : bytesAt (s.storeBytes a bytes).mem a bytes.length = bytes := by
  induction bytes generalizing a s with
  | nil => rfl
  | cons v rest ih =>
    rw [List.length_cons] at hlen
    have hfirst : memRead ((s.storeByte a v).storeBytes (a + 1) rest).mem a = v := by
      rw [memRead_storeBytes_other _ fun k hk => ne_succ_add_ofNat (by omega) a, State.storeByte_mem,
        memRead_memWrite_same hs]
    rw [State.storeBytes, List.length_cons, bytesAt, hfirst, ih (by omega) (a + 1) (memWrite_wf hs a v)]

theorem encode_length_le (i : Instr) : (encode i).length ≤ 3 := by
  rw [encode, List.length_cons, operandList_length]
  rcases operandBytes_eq i.mode with h | h <;> omega

/-- An instruction placed at PC is the one the next step runs. -/
theorem step_of_writesAt_encode {s : State} (hs : StateInv s) (i : Instr) :
    step (hostCalls (writesAt s.pc (encode i)) s) = exec i (hostCalls (writesAt s.pc (encode i)) s) := by
  have hlen := encode_length_le i
  have hdecode := decode_encode i []
  rw [List.append_nil] at hdecode
  rw [hostCalls_writesAt]
  refine step_of_decode_bytesAt (n := (encode i).length) (rest := []) ?_
  rw [State.storeBytes_pc, bytesAt_storeBytes (by omega) s.pc hs, hdecode]

/-- Settles O46: the two bytes are the encoding of `LDA #b`, so the step after placing them is its load. -/
theorem firstStepRunsAtTheResetAddress : Obligations.FirstStepRunsAtTheResetAddress := by
  intro resetAddr resetSP b fresh s
  have hstep : step s = .next (loaded s b 2) :=
    (step_of_writesAt_encode (construct_wf resetAddr resetSP) (.ldaImm b)).trans (exec_ldaImm b s)
  have hpc : s.pc = resetAddr := by
    simp only [s, hostCalls_writesAt, State.storeBytes_pc, fresh, State.construct_pc]
  refine ⟨loaded s b 2, by simp only [hostCall, stepCall, hstep], rfl, rfl, rfl, ?_⟩
  rw [loaded, hpc, BitVec.toNat_ofNat]
  exact Nat.mod_mod _ 65536

/-- Settles O45: the opcode byte there is 0x00, which has no row. -/
theorem stepOnFreshInstanceFails : Obligations.StepOnFreshInstanceFails := by
  intro ra rs
  have hop : decodeOpcode (fetchOpcode (State.construct ra rs)) = none := by
    rw [fetchOpcode, memRead_construct]
    rfl
  exact hostCall_step_of_unimplemented hop

end Sys2Proof.Machine
end

section
/-! The host's accessors (10_state.md section 8), and what a transaction leaves of the flags and SP. -/

namespace Sys2Proof.Machine

open Sys2Proof.Claims

/-! ### Accessors (10_state.md R33) -/

/-- The port keeps the low 16 bits of a host value for PC (92_eei_decisions.md D17). -/
theorem ofNat_word_mod (v : Nat) : BitVec.ofNat 16 (v % 65536) = BitVec.ofNat 16 v :=
  BitVec.eq_of_toNat_eq (by simp)

theorem readReg_writeReg (r r' : ByteReg) (w : Byte) (s : State) :
    readReg r' (writeReg r w s) = if r' = r then w else readReg r' s := by
  cases r <;> cases r' <;> rfl

theorem readFlag_writeFlag (f f' : Flag) (w : Bool) (s : State) :
    readFlag f' (writeFlag f w s) = if f' = f then w else readFlag f' s := by
  cases f <;> cases f' <;> rfl

@[simp] theorem readFlag_writeReg (f : Flag) (r : ByteReg) (w : Byte) (s : State) :
    readFlag f (writeReg r w s) = readFlag f s := by
  cases r <;> cases f <;> rfl

@[simp] theorem readReg_writeFlag (r : ByteReg) (f : Flag) (w : Bool) (s : State) :
    readReg r (writeFlag f w s) = readReg r s := by
  cases f <;> cases r <;> rfl

@[simp] theorem writeReg_pc (r : ByteReg) (w : Byte) (s : State) : (writeReg r w s).pc = s.pc := by
  cases r <;> rfl

@[simp] theorem writeReg_sp (r : ByteReg) (w : Byte) (s : State) : (writeReg r w s).sp = s.sp := by
  cases r <;> rfl

@[simp] theorem writeFlag_pc (f : Flag) (w : Bool) (s : State) : (writeFlag f w s).pc = s.pc := by
  cases f <;> rfl

@[simp] theorem writeFlag_sp (f : Flag) (w : Bool) (s : State) : (writeFlag f w s).sp = s.sp := by
  cases f <;> rfl

/-- Settles O48: each read and each write is its field's by definition, the port's reduction being
`ofNat_byte_mod` and `ofNat_word_mod`; a read after a write is `readReg_writeReg` or
`readFlag_writeFlag`. -/
theorem accessorsReadAndWriteOnePlace : Obligations.AccessorsReadAndWriteOnePlace := by
  refine ⟨fun s => ⟨rfl, rfl, rfl, rfl, rfl, rfl, rfl, rfl, rfl, rfl, rfl⟩, fun v s => ?_,
    fun bit s => ⟨rfl, rfl, rfl, rfl, rfl, rfl, rfl⟩, fun r r' v s => ⟨rfl, rfl, ?_⟩,
    fun f f' bit s => ⟨rfl, rfl, ?_⟩, fun v s => ⟨rfl, rfl, ?_, rfl⟩,
    fun r v s f => ⟨writeReg_pc r _ s, writeReg_sp r _ s, writeReg_mem r _ s, readFlag_writeReg f r _ s⟩,
    fun f bit s r => ⟨writeFlag_pc f bit s, writeFlag_sp f bit s, writeFlag_mem f bit s,
      readReg_writeFlag r f bit s⟩⟩
  · rw [ofNat_byte_mod, ofNat_word_mod]
    exact ⟨rfl, rfl, rfl, rfl⟩
  · simp only [hostCall, readReg_writeReg, ofNat_byte_mod, apply_ite Reply.byte]
  · simp only [hostCall, readFlag_writeFlag, apply_ite Reply.bit]
  · rw [ofNat_word_mod]
    rfl

/-- Settles O47: placed bytes by `step_of_writesAt_encode`; a written PC, index, A or flag is the state's
field, reduced as the port reduces it. -/
theorem hostWritesAreVisibleToTheNextStep : Obligations.HostWritesAreVisibleToTheNextStep := by
  refine ⟨fun s i hs => step_of_writesAt_encode hs i, fun s v => ?_, fun s zp v => ?_, fun s abs v => ?_,
    fun s v => ?_, fun s f bit => ?_⟩
  · rw [byteAt, ofNat_word_mod]
    rfl
  · have hx : (hostCall (.writeReg .x v) s).2.x.toNat = v % 256 := BitVec.toNat_ofNat v 8
    rw [exec_ldaZpX, hx, Nat.add_mod_mod]
    rfl
  · have hy : (hostCall (.writeReg .y v) s).2.y.toNat = v % 256 := BitVec.toNat_ofNat v 8
    rw [exec_ldaAbsY, hy]
    rfl
  · rw [ofNat_byte_mod]
    rfl
  · simp only [hostCall, readFlag_writeFlag, if_true]

/-! ### What a transaction leaves (92_eei_decisions.md D16, D20) -/

/-- A flag that is not written by a load changes by no transaction but the host's write of it. -/
theorem readFlag_hostCall_other {c : HostCall} {f : Flag} (hz : f ≠ .z) (hn : f ≠ .n)
    (hc : ∀ bit, c ≠ .writeFlag f bit) (s : State) : readFlag f (hostCall c s).2 = readFlag f s := by
  cases c with
  | step =>
    obtain ⟨-, -, -, hcf, hvf, hif, hdf, hbf, -⟩ := stepCall_sameButLoadTargets s
    cases f with
    | z => exact absurd rfl hz
    | n => exact absurd rfl hn
    | c => exact hcf
    | v => exact hvf
    | i => exact hif
    | d => exact hdf
    | b => exact hbf
  | writeReg r v => exact readFlag_writeReg f r _ s
  | writeFlag f' bit =>
    have hne : f ≠ f' := fun h => hc bit (by rw [h])
    exact (readFlag_writeFlag f' f bit s).trans (if_neg hne)
  | memRead | memWrite | readReg | readPc | writePc | readFlag | opcodeConstants => cases f <;> rfl

/-- Settles O34: C and V are in the frame of a step, and by `readFlag_hostCall_other` every transaction
but the write of the flag keeps it. -/
theorem carryAndOverflowChangeOnlyByHostWrite : Obligations.CarryAndOverflowChangeOnlyByHostWrite := by
  have hwrite {f : Flag} (hz : f ≠ .z) (hn : f ≠ .n) (c : HostCall) (s : State)
      (hchanged : readFlag f (hostCall c s).2 ≠ readFlag f s) : ∃ bit, c = .writeFlag f bit := by
    by_contra hno
    exact hchanged (readFlag_hostCall_other hz hn (fun bit h => hno ⟨bit, h⟩) s)
  refine ⟨fun s => ?_, hwrite (f := .c) (by decide) (by decide), hwrite (f := .v) (by decide) (by decide)⟩
  obtain ⟨-, -, -, hc, hv, -⟩ := stepCall_sameButLoadTargets s
  exact ⟨hc, hv⟩

/-- A step transaction answers alike from a state with another SP, which it passes through. -/
theorem stepCall_withSP (s : State) (sp : Byte) :
    stepCall { s with sp := sp } = ((stepCall s).1, { (stepCall s).2 with sp := sp }) := by
  rcases step_cases s with ⟨hop, hstep⟩ | ⟨m, hop, hstep⟩
  · have hstep' : step { s with sp := sp } = .fault .unimplementedOpcode := step_of_unimplemented hop
    simp only [stepCall, hstep, hstep']
  · have hstep' := step_of_implemented (s := { s with sp := sp }) hop
    simp only [stepCall, hstep, hstep']
    rfl

theorem hostCall_sp (c : HostCall) (s : State) : (hostCall c s).2.sp = s.sp := by
  cases c with
  | step =>
    obtain ⟨-, -, hsp, -⟩ := stepCall_sameButLoadTargets s
    exact hsp
  | writeReg r v => exact writeReg_sp r _ s
  | writeFlag f bit => exact writeFlag_sp f bit s
  | memRead | memWrite | readReg | readPc | writePc | readFlag | opcodeConstants => rfl

theorem hostCall_withSP (c : HostCall) (s : State) (sp : Byte) :
    hostCall c { s with sp := sp } = ((hostCall c s).1, { (hostCall c s).2 with sp := sp }) := by
  cases c with
  | step => exact stepCall_withSP s sp
  | readReg r | writeReg r => cases r <;> rfl
  | readFlag f | writeFlag f => cases f <;> rfl
  | memRead | memWrite | readPc | writePc | opcodeConstants => rfl

/-- Settles O49: no transaction writes SP (`hostCall_sp`) and none reads it (`hostCall_withSP`). -/
theorem stackPointerIsUnobservableAndConstant : Obligations.StackPointerIsUnobservableAndConstant :=
  fun c s sp => ⟨hostCall_sp c s, hostCall_withSP c s sp⟩

/-- Settles O50: with the same PC and the same byte there the opcode is the same, and has no row. -/
theorem errorRepeatsUntilHostChangesPcOrOpcode : Obligations.ErrorRepeatsUntilHostChangesPcOrOpcode := by
  intro s calls hfault hpc hbyte
  obtain ⟨-, hop⟩ := step_fault hfault
  have hfetch : fetchOpcode (hostCalls calls s) = fetchOpcode s := by
    rw [fetchOpcode, hpc, hbyte, ← fetchOpcode]
  exact hostCall_step_of_unimplemented (by rw [hfetch, hop])

end Sys2Proof.Machine
end

section
/-! Runs of steps (41_fetch_decode_execute.md section 4, log entry 16): how a run ends, and when a step and
a run succeed. -/

namespace Sys2Proof.Machine

open Sys2Proof.Safety

/-! ### How a run ends -/

/-- A run's first step, and the run from there, when it completes. -/
theorem runFrom_succ_completed_iff {done k : Nat} {s t : State} :
    runFrom done (k + 1) s = .completed t ↔ ∃ u, step s = .next u ∧ runFrom (done + 1) k u = .completed t := by
  rcases step_cases s with ⟨-, h⟩ | ⟨m, -, h⟩
  · simp [runFrom_succ_of_fault h, h]
  · simp [runFrom_succ_of_next h, h]

theorem core_run_succ_of_next (M : Host.Core) {s u : M.State} (h : M.step s = .next u) (k : Nat) :
    M.run (k + 1) s = M.run k u := by
  rw [core_run_succ, h]

theorem core_run_succ_of_fault (M : Host.Core) {s : M.State} {e : M.Fault} (h : M.step s = .fault e)
    (k : Nat) : M.run (k + 1) s = .fault e := by
  rw [core_run_succ, h]

/-- A run completes exactly when the core's own run of as many steps answers its last state. -/
theorem runFrom_completed_iff (k done : Nat) (s t : State) :
    runFrom done k s = .completed t ↔ Host.Core.run core k s = .next t := by
  induction k generalizing done s with
  | zero => exact ⟨fun h => congrArg Host.Outcome.next (RunEnd.completed.inj h),
      fun h => congrArg RunEnd.completed (Host.Outcome.next.inj h)⟩
  | succ k ih =>
    rcases step_cases s with ⟨-, h⟩ | ⟨m, -, h⟩
    · rw [runFrom_succ_of_fault h]
      exact iff_of_false (fun hrun => by cases hrun)
        (fun hrun => by cases (core_run_succ_of_fault core h k).symm.trans hrun)
    · rw [runFrom_succ_of_next h]
      exact (ih (done + 1) _).trans (Eq.congr_left (core_run_succ_of_next core h k)).symm

/-- A run that ends completes, or fails with the one exception. -/
theorem runFrom_completed_or_err (k done : Nat) (s : State) :
    (∃ t, runFrom done k s = .completed t) ∨
      ∃ done' t, runFrom done k s = .err done' .unimplementedOpcode t := by
  induction k generalizing done s with
  | zero => exact .inl ⟨s, rfl⟩
  | succ k ih =>
    rcases step_cases s with ⟨-, h⟩ | ⟨m, -, h⟩
    · exact .inr ⟨done, s, runFrom_succ_of_fault h done k⟩
    · rw [runFrom_succ_of_next h]
      exact ih (done + 1) _

/-- Where a run fails: after some number of successful steps, fewer than asked for, whose run completes in
the state the failing step leaves. -/
theorem runFrom_err {k done done' : Nat} {e : Fault} {s t : State} (h : runFrom done k s = .err done' e t) :
    ∃ j < k, done' = done + j ∧ runFrom done j s = .completed t ∧ step t = .fault e := by
  induction k generalizing done s with
  | zero => cases h
  | succ k ih =>
    rcases step_cases s with ⟨-, hs⟩ | ⟨m, -, hs⟩
    · rw [runFrom_succ_of_fault hs] at h
      cases h
      exact ⟨0, Nat.succ_pos k, rfl, rfl, hs⟩
    · rw [runFrom_succ_of_next hs] at h
      obtain ⟨j, hj, hdone, hrun, hfault⟩ := ih h
      exact ⟨j + 1, Nat.succ_lt_succ hj, by omega, by rw [runFrom_succ_of_next hs, hrun], hfault⟩

/-- Settles O51: `runFrom_completed_or_err`, `runFrom_completed_iff` and `runFrom_err`, with no step done
before. -/
theorem runEndsAtTheLastStepOrTheFirstError : Obligations.RunEndsAtTheLastStepOrTheFirstError := by
  refine ⟨fun k s => runFrom_completed_or_err k 0 s, fun k s t => runFrom_completed_iff k 0 s t,
    fun k done e s t h => ?_⟩
  obtain ⟨j, hj, hdone, hrun, hfault⟩ := runFrom_err h
  obtain rfl : done = j := by omega
  exact ⟨hj, hrun, hfault⟩

/-! ### When a step and a run succeed -/

theorem stepSucceeds_eq_isSome (s : State) : stepSucceeds s = (decodeOpcode (fetchOpcode s)).isSome := by
  rw [stepSucceeds, fetchInstr]
  cases decodeOpcode (fetchOpcode s) <;> rfl

theorem decodeOpcode_isSome_iff (op : Byte) :
    (decodeOpcode op).isSome = true ↔ op.toNat / 32 = 5 ∧ op.toNat % 4 = 1 := by
  rw [decoderMatchesTheBitFields op]
  split
  · next h => exact iff_of_true rfl h
  · next h => exact iff_of_false (by decide) h

theorem runSucceeds_iff (k : Nat) (s : State) :
    runSucceeds k s = true ↔ ∃ t, runSteps k s = .completed t := by
  unfold runSucceeds
  cases runSteps k s <;> simp

/-- A run that completes completes after fewer steps. -/
theorem runFrom_completed_of_le {j k : Nat} (hjk : j ≤ k) {done : Nat} {s t : State}
    (h : runFrom done k s = .completed t) : ∃ u, runFrom done j s = .completed u := by
  induction j generalizing k done s with
  | zero => exact ⟨s, rfl⟩
  | succ j ih =>
    obtain ⟨k, rfl⟩ := Nat.exists_eq_add_of_le' (Nat.one_le_of_lt hjk)
    obtain ⟨u, hstep, hrun⟩ := runFrom_succ_completed_iff.mp h
    obtain ⟨v, hv⟩ := ih (Nat.le_of_succ_le_succ hjk) hrun
    exact ⟨v, runFrom_succ_completed_iff.mpr ⟨u, hstep, hv⟩⟩

/-- Settles O23: a step succeeds where the opcode has a row, whose bytes `decodeOpcode_isSome_iff` gives,
and a shorter run by `runFrom_completed_of_le`. -/
theorem stepSucceedsExactlyOnImplementedOpcodes : Obligations.StepSucceedsExactlyOnImplementedOpcodes := by
  refine ⟨fun s => ?_, fun s => ?_, fun j k s hjk hk => ?_⟩
  · rw [stepSucceeds_eq_isSome]
    rcases step_cases s with ⟨hop, hstep⟩ | ⟨m, hop, hstep⟩
    · simp [hop, hstep]
    · simp [hop, hstep]
  · rw [stepSucceeds_eq_isSome, decodeOpcode_isSome_iff]
  · obtain ⟨t, ht⟩ := (runSucceeds_iff k s).mp hk
    exact (runSucceeds_iff j s).mpr (runFrom_completed_of_le hjk ht)

end Sys2Proof.Machine
end
